-- ==== Sys2Proof/Word.lean ====
section
/-! DEFINITION. The word types of the codec (00_scope.md R7, R11). The block treats every value it moves as bits:
bytes of a stream, and fields of 16, 32 and 64 bits; a text value is a finite list of 16-bit code units. -/

namespace Sys2Proof

/-- An 8-bit unsigned value, the unit of every stream (R5 `BYTE_BITS`, R7). -/
abbrev Byte := BitVec 8

/-- A `word16`: a 16-bit field, a char, or one code unit of a text (R7, R11). -/
abbrev Word16 := BitVec 16

/-- A `word32`: a 32-bit field or a float's bit pattern (R7, R124). -/
abbrev Word32 := BitVec 32

/-- A `word64`: a 64-bit field or a double's bit pattern (R7, R124). -/
abbrev Word64 := BitVec 64

/-- A text value: ANY finite list of code units, the empty list, unpaired surrogates and the unit 0 included (R11). -/
abbrev Text := List Word16

end Sys2Proof
end

