-- ==== Sys2Proof/Config.lean ====
section
/-! DEFINITION. What the source leaves open and the environment decides (00_scope.md R6, 92_eei_decisions.md OPEN
table), and the numbers the source fixes (R5). -/

namespace Sys2Proof

/-- FREE VALUE (log entry 1). Which tags are values of the streams' error type, an open parameter (R6, D23). It has no
body, so nothing can be proved of how many errors there are, nor of which. -/
opaque Config.isIOErr (tag : Nat) : Bool

/-- A value of the streams' own error type `IOErr` (R6, D23): a tag that `Config.isIOErr` admits, or 0, so that there is an
error to fail with (DESIGN CHOICE, log entry 1). The block never looks inside one. -/
structure IOErr where
  tag : Nat
  admitted : tag = 0 ∨ Config.isIOErr tag = true
  deriving DecidableEq, Repr

/-- What a stream answers to ONE primitive call (R33, R43, R46): it serves the call, or it fails with an error of its
own after taking or giving `k` bytes. -/
inductive StreamAnswer where
  | normal
  | fail (e : IOErr) (k : Nat)
  deriving DecidableEq, Repr, Inhabited

/-- FREE VALUE (log entry 2). `srcOracle` (R6, D8): how source number `stream` answers its `call`-th primitive call.
It has no body, so whatever is proved holds for every source. -/
opaque Config.srcOracle (stream call : Nat) : StreamAnswer

/-- FREE VALUE (log entry 2). `sinkOracle` (R6, D9): how sink number `stream` answers its `call`-th primitive call. -/
opaque Config.sinkOracle (stream call : Nat) : StreamAnswer

/-- `PREFIX_BYTES` (R5): the bytes of a text's length field. -/
def Config.lengthBytes : Nat := 2

/-- `MAX_TEXT_BYTES` (R5): the largest encoded body length. -/
def Config.maxTextBytes : Nat := 65535

/-- `MAX_FRAME_BYTES` (R5): the largest text frame, length field and body. -/
def Config.maxFrameBytes : Nat := 65537

end Sys2Proof
end

