-- ==== Sys2Proof/Syntax.lean ====
section
/-! DEFINITION. The 22 operations of the codec, one constructor per row of spec/opcode_table.json, in the table's
order (30_encoding.md R68). A signed operand is the integer itself, whose range WellFormed checks; a float or double
operand is its bit pattern (R124). -/

namespace Sys2Proof

/-- One operation with its operand. A decode takes none (R68). -/
inductive Instr where
  /-- `enc.bool` (R102). -/
  | encBool (v : Bool)
  /-- `enc.u16` (R104). -/
  | encU16 (v : Word16)
  /-- `enc.s16` (R106). -/
  | encS16 (v : Int)
  /-- `enc.char` (R108). -/
  | encChar (c : Word16)
  /-- `enc.u32` (R110). -/
  | encU32 (v : Word32)
  /-- `enc.s32` (R112). -/
  | encS32 (v : Int)
  /-- `enc.u64` (R114). -/
  | encU64 (v : Word64)
  /-- `enc.s64` (R116). -/
  | encS64 (v : Int)
  /-- `enc.f32` (R118). -/
  | encF32 (w : Word32)
  /-- `enc.f64` (R120). -/
  | encF64 (w : Word64)
  /-- `enc.text` (R142). -/
  | encText (t : Text)
  /-- `dec.bool` (R103). -/
  | decBool
  /-- `dec.u16` (R105). -/
  | decU16
  /-- `dec.s16` (R107). -/
  | decS16
  /-- `dec.char` (R109). -/
  | decChar
  /-- `dec.u32` (R111). -/
  | decU32
  /-- `dec.s32` (R113). -/
  | decS32
  /-- `dec.u64` (R115). -/
  | decU64
  /-- `dec.s64` (R117). -/
  | decS64
  /-- `dec.f32` (R119). -/
  | decF32
  /-- `dec.f64` (R121). -/
  | decF64
  /-- `dec.text` (R150). -/
  | decText
  deriving DecidableEq, Repr

end Sys2Proof
end

