-- ==== Sys2Proof/WellFormed.lean ====
section
/-! DEFINITION. Which instructions a request can express (30_encoding.md R68, 92_eei_decisions.md D5). Every operand
but a signed one is in range by its type. -/

namespace Sys2Proof

/-- `v` lies in the signed range of `n` bits, `-2^(n-1) .. 2^(n-1)-1` (R10, R68). -/
def inSignedRange (n : Nat) (v : Int) : Bool :=
  decide (-(2 : Int) ^ (n - 1) ≤ v) && decide (v < (2 : Int) ^ (n - 1))

/-- The operand is one the request format can carry: a signed operand lies in its field's range (R68). -/
def Instr.wellFormed : Instr → Bool
  | .encS16 v => inSignedRange 16 v
  | .encS32 v => inSignedRange 32 v
  | .encS64 v => inSignedRange 64 v
  | .encBool _ | .encU16 _ | .encChar _ | .encU32 _ | .encU64 _ | .encF32 _ | .encF64 _ | .encText _
  | .decBool | .decU16 | .decS16 | .decChar | .decU32 | .decS32 | .decU64 | .decS64 | .decF32 | .decF64
  | .decText => true

end Sys2Proof
end

