-- ==== Sys2Proof/Decode.lean ====
section
/-! DEFINITION. The request format and its decoder and encoder (10_state.md R28; 30_encoding.md R67 to R71). An opcode
byte is `D000TTTT`: D the direction, TTTT the wire type's code. A request is that byte and a typed operand. -/

namespace Sys2Proof

/-- The opcode's D field (R67): 0 encodes, for an Encoder; 1 decodes, for a Decoder. -/
inductive Direction where
  | enc
  | dec
  deriving DecidableEq, Repr

/-- The wire types, in the order of their codes (R68). -/
inductive WireType where
  | bool
  | u16
  | s16
  | char
  | u32
  | s32
  | u64
  | s64
  | f32
  | f64
  | text
  deriving DecidableEq, Repr

/-- A request's operand (R28). A signed operand travels as its bit pattern, a `word16`, `word32` or `word64` (R68). -/
inductive Operand where
  | none
  | bool (v : Bool)
  | word16 (w : Word16)
  | word32 (w : Word32)
  | word64 (w : Word64)
  | text (t : Text)
  deriving DecidableEq, Repr

/-- One request record (R28). -/
structure Request where
  opcode  : Byte
  operand : Operand
  deriving DecidableEq, Repr

/-- Why a request is no instruction. -/
inductive DecodeError where
  /-- The opcode byte names no operation (R70): the block answers IllegalOperation. -/
  | reservedOpcode (opcode : Byte)
  /-- The operand's type is not the one the opcode takes: such a request cannot be written (R68, D5). Safe. -/
  | operandMismatch (opcode : Byte)
  deriving DecidableEq, Repr

/-! ## Signed interpretation -/

/-- `toSigned_N` (R10; two's complement, PRESUMED by the spec itself, log entry 17). -/
def toSigned {n : Nat} (w : BitVec n) : Int :=
  if w.toNat < 2 ^ (n - 1) then (w.toNat : Int) else (w.toNat : Int) - (2 : Int) ^ n

/-- `toBits_N` (R10): the integer modulo `2^n`. -/
def toBits (n : Nat) (i : Int) : BitVec n :=
  BitVec.ofNat n (i % (2 : Int) ^ n).toNat

/-! ## The opcode byte -/

/-- The wire types in code order: a type's code is its place here (R68). -/
def WireType.all : List WireType :=
  [.bool, .u16, .s16, .char, .u32, .s32, .u64, .s64, .f32, .f64, .text]

/-- The type code T of a wire type (R68). -/
def WireType.code : WireType → Nat
  | .bool => 0x0
  | .u16  => 0x1
  | .s16  => 0x2
  | .char => 0x3
  | .u32  => 0x4
  | .s32  => 0x5
  | .u64  => 0x6
  | .s64  => 0x7
  | .f32  => 0x8
  | .f64  => 0x9
  | .text => 0xA

/-- The D bit of a direction (R67). -/
def Direction.bit : Direction → Nat
  | .enc => 0
  | .dec => 1

/-- The direction an opcode byte's bit 7 gives, whatever the rest of the byte is (R67). -/
def directionOf (opcode : Byte) : Direction :=
  if opcode.getLsbD 7 then .dec else .enc

/-- The opcode byte `D000TTTT` of an operation (R67, R68). -/
def opcodeOf (d : Direction) (t : WireType) : Byte :=
  BitVec.ofNat 8 (d.bit * 128 + t.code)

/-- Reads an opcode byte: bits 6:4 must be zero and bits 3:0 must be a type's code; every other byte is reserved (R67,
R70). -/
def decodeOpcode (opcode : Byte) : Option (Direction × WireType) :=
  if opcode.extractLsb' 4 3 = 0 then
    (WireType.all[(opcode.extractLsb' 0 4).toNat]?).map fun t => (directionOf opcode, t)
  else
    none

/-! ## The request -/

/-- The boolean an operand carries, if it carries one. -/
def Operand.bool? : Operand → Option Bool
  | .bool v => some v
  | .none | .word16 _ | .word32 _ | .word64 _ | .text _ => Option.none

/-- The 16-bit word an operand carries, if it carries one. -/
def Operand.word16? : Operand → Option Word16
  | .word16 w => some w
  | .none | .bool _ | .word32 _ | .word64 _ | .text _ => Option.none

/-- The 32-bit word an operand carries, if it carries one. -/
def Operand.word32? : Operand → Option Word32
  | .word32 w => some w
  | .none | .bool _ | .word16 _ | .word64 _ | .text _ => Option.none

/-- The 64-bit word an operand carries, if it carries one. -/
def Operand.word64? : Operand → Option Word64
  | .word64 w => some w
  | .none | .bool _ | .word16 _ | .word32 _ | .text _ => Option.none

/-- The text an operand carries, if it carries one. -/
def Operand.text? : Operand → Option Text
  | .text t => some t
  | .none | .bool _ | .word16 _ | .word32 _ | .word64 _ => Option.none

/-- The encode of a wire type, where the operand has the type it takes (R68, R69). -/
def encodeInstr : WireType → Operand → Option Instr
  | .bool, o => o.bool?.map .encBool
  | .u16, o => o.word16?.map .encU16
  | .s16, o => o.word16?.map fun w => .encS16 (toSigned w)
  | .char, o => o.word16?.map .encChar
  | .u32, o => o.word32?.map .encU32
  | .s32, o => o.word32?.map fun w => .encS32 (toSigned w)
  | .u64, o => o.word64?.map .encU64
  | .s64, o => o.word64?.map fun w => .encS64 (toSigned w)
  | .f32, o => o.word32?.map .encF32
  | .f64, o => o.word64?.map .encF64
  | .text, o => o.text?.map .encText

/-- The decode of a wire type. -/
def decodeInstr : WireType → Instr
  | .bool => .decBool
  | .u16 => .decU16
  | .s16 => .decS16
  | .char => .decChar
  | .u32 => .decU32
  | .s32 => .decS32
  | .u64 => .decU64
  | .s64 => .decS64
  | .f32 => .decF32
  | .f64 => .decF64
  | .text => .decText

/-- The instruction of an operation with its operand; a decode takes none (R68). -/
def instrOf (d : Direction) (t : WireType) (o : Operand) : Option Instr :=
  match d with
  | .enc => encodeInstr t o
  | .dec => if o = .none then some (decodeInstr t) else none

/-- Decodes a request, total on every opcode byte and operand, rejecting by name (R67, R68, R70). -/
def decode (r : Request) : Except DecodeError Instr :=
  match decodeOpcode r.opcode with
  | none => .error (.reservedOpcode r.opcode)
  | some (d, t) =>
    match instrOf d t r.operand with
    | some i => .ok i
    | none => .error (.operandMismatch r.opcode)

/-! ## The encoder -/

/-- The direction of an instruction: which kind of instance runs it (R67). -/
def Instr.direction : Instr → Direction
  | .encBool _ | .encU16 _ | .encS16 _ | .encChar _ | .encU32 _ | .encS32 _ | .encU64 _ | .encS64 _
  | .encF32 _ | .encF64 _ | .encText _ => .enc
  | .decBool | .decU16 | .decS16 | .decChar | .decU32 | .decS32 | .decU64 | .decS64 | .decF32 | .decF64
  | .decText => .dec

/-- The wire type of an instruction (R68). -/
def Instr.wireType : Instr → WireType
  | .encBool _ | .decBool => .bool
  | .encU16 _ | .decU16 => .u16
  | .encS16 _ | .decS16 => .s16
  | .encChar _ | .decChar => .char
  | .encU32 _ | .decU32 => .u32
  | .encS32 _ | .decS32 => .s32
  | .encU64 _ | .decU64 => .u64
  | .encS64 _ | .decS64 => .s64
  | .encF32 _ | .decF32 => .f32
  | .encF64 _ | .decF64 => .f64
  | .encText _ | .decText => .text

/-- The operand a request for this instruction carries (R68: a signed value as `toBits_N`). -/
def Instr.operand : Instr → Operand
  | .encBool v => .bool v
  | .encU16 v | .encChar v => .word16 v
  | .encS16 v => .word16 (toBits 16 v)
  | .encU32 v | .encF32 v => .word32 v
  | .encS32 v => .word32 (toBits 32 v)
  | .encU64 v | .encF64 v => .word64 v
  | .encS64 v => .word64 (toBits 64 v)
  | .encText t => .text t
  | .decBool | .decU16 | .decS16 | .decChar | .decU32 | .decS32 | .decU64 | .decS64 | .decF32 | .decF64
  | .decText => .none

/-- The opcode byte of an instruction (R68). -/
def Instr.opcode (i : Instr) : Byte :=
  opcodeOf i.direction i.wireType

/-- The request that names an instruction (R28, R68). -/
def encode (i : Instr) : Request :=
  ⟨i.opcode, i.operand⟩

/-! ## The opcode table's bits -/

/-- The operand of an operation with every bit zero: false, 0, the empty text, or none for a decode (log entry 18). -/
def zeroOperand : Direction → WireType → Operand
  | .dec, _ => .none
  | .enc, .bool => .bool false
  | .enc, .u16 | .enc, .s16 | .enc, .char => .word16 0
  | .enc, .u32 | .enc, .s32 | .enc, .f32 => .word32 0
  | .enc, .u64 | .enc, .s64 | .enc, .f64 => .word64 0
  | .enc, .text => .text []

/-- The request whose opcode byte is given and whose operand bits are all zero; a reserved opcode carries no operand. -/
def requestOfOpcode (opcode : Byte) : Request :=
  match decodeOpcode opcode with
  | none => ⟨opcode, .none⟩
  | some (d, t) => ⟨opcode, zeroOperand d t⟩

/-- The instruction the decoder reads from a row of spec/opcode_table.json: the row is the 8 bits of the opcode byte
(its width `nbits` is 8 in every row), and the operand bits above it are zero. -/
def decodeTableWord (nbits w : Nat) : Option Instr :=
  if nbits = 8 ∧ w < 256 then (decode (requestOfOpcode (BitVec.ofNat 8 w))).toOption else none

end Sys2Proof
end

