-- ==== Sys2Proof/Machine/State.lean ====
section
/-! DEFINITION. The machine's state as plain data (10_state.md, 60_exceptions.md R200, 70_reset_and_hazards.md R250):
a set of instances, what the host has still to do, and the responses given. -/

namespace Sys2Proof.Machine

/-- A decoded value (R29): `Bool`, `word16`, `word32`, `word64`, an integer (signed decodes) or a text value. -/
inductive Result where
  | bool (v : Bool)
  | word16 (w : Word16)
  | word32 (w : Word32)
  | word64 (w : Word64)
  | int (v : Int)
  | text (t : Text)
  deriving DecidableEq, Repr

/-- Why a form of a text body is malformed (R202). -/
inductive Reason where
  | truncated
  | badContinuation
  | badLead
  deriving DecidableEq, Repr

/-- An error of an operation, with the info it records (R200 to R205). It ends the one operation, never the machine. -/
inductive Err where
  /-- The source ended with fewer bytes than `needed` (R201). -/
  | shortRead (needed available : Nat)
  /-- The form whose lead byte stands at `offset` of the body breaks the grammar (R202). -/
  | malformedInput (offset : Nat) (reason : Reason)
  /-- The encoded body would be `length` bytes, over the bound (R203). -/
  | lengthExceeded (length : Nat)
  /-- The stream's own error, unchanged (R204). -/
  | ioFailure (e : IOErr)
  /-- The request's opcode names no operation of this instance (R205). -/
  | illegalOperation (opcode : Byte)
  deriving DecidableEq, Repr

/-- One response record (R29): a result only on success, an info only on error. An encode's success has no result. -/
inductive Response where
  | ok (result : Option Result)
  | error (e : Err)
  deriving DecidableEq, Repr

/-- A response and the number of the instance that gave it. -/
structure Reply where
  inst     : Nat
  response : Response
  deriving DecidableEq, Repr

/-- The stream an instance is attached to, as the block meets it (R26, R33): which one it is, how many primitive calls
it has answered, and the answers already fixed for its next calls (log entries 2 and 12; the last two are the model's
own, for the free value). -/
structure Stream where
  id        : Nat
  calls     : Nat
  scheduled : List StreamAnswer
  deriving DecidableEq, Repr

/-- An Encoder (R22): the bytes its sink has accepted since attach, in order. -/
structure Encoder where
  out  : List Byte
  sink : Stream
  deriving DecidableEq, Repr

/-- A Decoder (R23): the bytes its source will still deliver, and those it had to deliver at attach. -/
structure Decoder where
  inp0   : List Byte
  inp    : List Byte
  source : Stream
  deriving DecidableEq, Repr

/-- An instance: an Encoder or a Decoder, fixed for its life (R21, R250). -/
inductive Instance where
  | encoder (e : Encoder)
  | decoder (d : Decoder)
  deriving DecidableEq, Repr

/-- What the host does next (R214). -/
inductive HostAction where
  /-- Attach a new Encoder to a sink, some of whose answers are fixed beforehand (R250). -/
  | attachEncoder (scheduled : List StreamAnswer)
  /-- Attach a new Decoder to a source that will deliver `inp0` (R250). -/
  | attachDecoder (inp0 : List Byte) (scheduled : List StreamAnswer)
  /-- Issue a request to instance number `inst` and wait for its response (R28). -/
  | request (inst : Nat) (r : Request)
  /-- Two requests to one instance that overlap in time, which the contract forbids (R59, R254). -/
  | overlap (inst : Nat) (first second : Request)
  deriving DecidableEq, Repr

/-- The machine. An instance's number is its place in `instances`. `target` is the instance the request being run was
issued to (the model's own, log entry 9). -/
structure State where
  instances : List Instance
  host      : List HostAction
  target    : Nat
  replies   : List Reply
  deriving DecidableEq, Repr

/-- Why the machine stops. -/
inductive Fault where
  /-- Raised by Fetch.lean and by exec: a request names an instance the host never attached (R214, R252; log entry 6). Safe. -/
  | noInstance
  deriving DecidableEq, Repr

/-- Why the machine gives an action no meaning. -/
inductive Refusal where
  /-- Raised only by an arm of exec whose instruction has no meaning yet. Safe. -/
  | notModelled (mnemonic : String)
  /-- Raised by Fetch.lean: two requests to one instance overlap, "unsafe and out of contract" (R59, R214, R254, D15). Safe. -/
  | overlappingRequests
  /-- Raised by Fetch.lean: the operand has a type the opcode does not take, which no request can carry (R68, D5; log
  entry 7). Safe. -/
  | operandMismatch (opcode : Byte)
  /-- Raised by the three signed encodes: an integer outside the field's range, which no request can carry (R68, D5; log
  entry 8). No step reaches it: the decoder yields only integers in range. Safe. -/
  | operandOutOfRange
  deriving DecidableEq, Repr

/-- Right after reset: an instance comes into being by attaching (R250), so there is none, no request is in progress
(R251) and no response has been given (log entries 4, 5, 9, 10). -/
def State.reset : State where
  instances := []
  host := []
  target := 0
  replies := []

end Sys2Proof.Machine
end

