-- ==== Sys2Proof/Machine/Flags.lean ====
section
/-! DEFINITION. The block has no flags, condition codes or predicates (10_state.md R25). Its only condition indication
is the `status` of a response, with the numeric codes and the info of 60_exceptions.md R200. -/

namespace Sys2Proof.Machine

/-- The outcome a response reports (R29, R200). -/
inductive Status where
  | ok
  | shortRead
  | malformedInput
  | lengthExceeded
  | ioFailure
  | illegalOperation
  deriving DecidableEq, Repr

/-- The numeric code of a status (R200, D4). -/
def Status.code : Status → Nat
  | .ok => 0
  | .shortRead => 1
  | .malformedInput => 2
  | .lengthExceeded => 3
  | .ioFailure => 4
  | .illegalOperation => 5

/-- The status an error reports (R200). -/
def Err.status : Err → Status
  | .shortRead _ _ => .shortRead
  | .malformedInput _ _ => .malformedInput
  | .lengthExceeded _ => .lengthExceeded
  | .ioFailure _ => .ioFailure
  | .illegalOperation _ => .illegalOperation

/-- A response's `status` field (R29). -/
def Response.status : Response → Status
  | .ok _ => .ok
  | .error e => e.status

/-- A response's `result` field: present only on the success of a decode (R29). -/
def Response.result : Response → Option Result
  | .ok r => r
  | .error _ => none

/-- A response's `info` field: present only on error (R29). -/
def Response.info : Response → Option Err
  | .ok _ => none
  | .error e => some e

end Sys2Proof.Machine
end

