-- ==== Sys2Proof/Machine/Operands.lean ====
section
/-! DEFINITION. How operands and results become stream bytes: big-endian fields (00_scope.md R9; 20_memory.md R48;
30_encoding.md R60, R61, R69). No operand is scaled, shifted or extended. -/

namespace Sys2Proof.Machine

/-- `BE_n(w)` (R9): the low `n` bytes of `w`, most significant first; for a word of `8n` bits, all of it. -/
def beBytes {m : Nat} : Nat → BitVec m → List Byte
  | 0, _ => []
  | n + 1, w => w.extractLsb' (8 * n) 8 :: beBytes n w

/-- `fromBE(bs) = Σ bs[i] · 2^(8·(n-1-i))` (R9). -/
def fromBE : List Byte → Nat
  | [] => 0
  | b :: bs => b.toNat * 2 ^ (8 * bs.length) + fromBE bs

/-- The wire byte of a boolean operand: 0x01 or 0x00 (R61, R69). -/
def boolByte (v : Bool) : Byte :=
  if v then 0x01 else 0x00

/-- The boolean a wire byte stands for: true exactly when nonzero (R61). -/
def byteBool (b : Byte) : Bool :=
  decide (b ≠ 0x00)

/-- How many stream bytes a fixed-width field takes, and none for text, whose length its own length field tells (R51,
R68, R72). -/
def fieldBytes : WireType → Option Nat
  | .bool => some 1
  | .u16 | .s16 | .char => some 2
  | .u32 | .s32 | .f32 => some 4
  | .u64 | .s64 | .f64 => some 8
  | .text => none

end Sys2Proof.Machine
end

