-- ==== Sys2Proof/Machine/Ops.lean ====
section
/-! DEFINITION. The named operations every meaning is built from: the stream primitives `SrcRead` and `SinkWrite`
(20_memory.md R41 to R47), attaching an instance (70_reset_and_hazards.md R250), ending an operation with a response,
and raising an error (60_exceptions.md R208). There is no return from an error (R210). -/

namespace Sys2Proof.Machine

/-! ## Streams -/

/-- A source's answer to its next primitive call (R33): the scheduled one, else the free value. -/
def Stream.srcAnswer (st : Stream) : StreamAnswer :=
  st.scheduled.headD (Config.srcOracle st.id st.calls)

/-- A sink's answer to its next primitive call (R33): the scheduled one, else the free value. -/
def Stream.sinkAnswer (st : Stream) : StreamAnswer :=
  st.scheduled.headD (Config.sinkOracle st.id st.calls)

/-- The stream after it has answered one primitive call. -/
def Stream.answered (st : Stream) : Stream :=
  { st with calls := st.calls + 1, scheduled := st.scheduled.tail }

/-- `SrcRead(n)` (R41 to R44): a zero-length read touches nothing (D7); else one call of the source, which delivers the
first `n` bytes, ends short and is left at its end (D6), or fails after `k` bytes, `0 ≤ k ≤ min(n, |inp|)` (D8; a draw
outside that range is cut to it, log entry 3). -/
def srcRead (n : Nat) (d : Decoder) : Except Err (List Byte) × Decoder :=
  if n = 0 then (.ok [], d) else
    match d.source.srcAnswer with
    | .normal =>
      if n ≤ d.inp.length then
        (.ok (d.inp.take n), { d with inp := d.inp.drop n, source := d.source.answered })
      else
        (.error (.shortRead n d.inp.length), { d with inp := [], source := d.source.answered })
    | .fail e k =>
      (.error (.ioFailure e),
        { d with inp := d.inp.drop (min k (min n d.inp.length)), source := d.source.answered })

/-- `SinkWrite(bs)` (R45, R46): one call of the sink, which accepts every byte, or fails having accepted the first `k`,
`0 ≤ k ≤ |bs|` (D9; a draw outside that range is cut to it, log entry 3). -/
def sinkWrite (bs : List Byte) (e : Encoder) : Except Err Unit × Encoder :=
  match e.sink.sinkAnswer with
  | .normal => (.ok (), { e with out := e.out ++ bs, sink := e.sink.answered })
  | .fail err k =>
    (.error (.ioFailure err),
      { e with out := e.out ++ bs.take (min k bs.length), sink := e.sink.answered })

/-! ## Instances -/

/-- Which requests an instance takes: an Encoder encodes, a Decoder decodes (R67, R71). -/
def Instance.direction : Instance → Direction
  | .encoder _ => .enc
  | .decoder _ => .dec

/-- The stream an instance is attached to (R26). -/
def Instance.stream : Instance → Stream
  | .encoder e => e.sink
  | .decoder d => d.source

/-- `pos` (10_state.md R23, R31): how many bytes a Decoder has consumed since attach. -/
def Decoder.pos (d : Decoder) : Nat :=
  d.inp0.length - d.inp.length

/-- A stream as an attach finds it: of its own number, with no call answered yet (log entry 12). -/
def Stream.fresh (id : Nat) (scheduled : List StreamAnswer) : Stream :=
  ⟨id, 0, scheduled⟩

/-- Attach a new Encoder: reset state `out = []` (R32, R250). Its number, and its stream's, is the next free one. -/
def State.attachEncoder (s : State) (scheduled : List StreamAnswer) : State :=
  { s with instances :=
      s.instances ++ [.encoder ⟨[], Stream.fresh s.instances.length scheduled⟩] }

/-- Attach a new Decoder: reset state `inp = inp0` (R32, R250). -/
def State.attachDecoder (s : State) (inp0 : List Byte) (scheduled : List StreamAnswer) : State :=
  { s with instances :=
      s.instances ++ [.decoder ⟨inp0, inp0, Stream.fresh s.instances.length scheduled⟩] }

/-- The instance the request being run was issued to, if the host attached one of that number. -/
def State.addressed (s : State) : Option Instance :=
  s.instances[s.target]?

/-- End the operation: the addressed instance becomes `x` and gives its one response (R29). -/
def State.respond (s : State) (x : Instance) (r : Response) : State :=
  { s with instances := s.instances.set s.target x, replies := s.replies ++ [⟨s.target, r⟩] }

/-- RAISE AN ERROR (R208): the operation ends with `status`, `info` and no `result`; the addressed instance keeps what the
primitives that ran did to it, which is `x`; nothing else changes. -/
def State.raise (s : State) (x : Instance) (e : Err) : State :=
  s.respond x (.error e)

/-- End the operation as its outcome says: respond ok, or raise. -/
def State.finish (s : State) (x : Instance) : Except Err (Option Result) → State
  | .ok r => s.respond x (.ok r)
  | .error e => s.raise x e

/-! ## Running an operation on the addressed instance -/

/-- Run an encode (R21, R71, R207): on an Encoder its outcome and effect; a Decoder answers IllegalOperation, unchanged;
no instance of that number, the machine stops. -/
def State.onEncoder (s : State) (opcode : Byte) (op : Encoder → Except Err Unit × Encoder) :
    Host.Outcome State Fault Refusal :=
  match s.addressed with
  | none => .fault .noInstance
  | some (.decoder d) => .next (s.raise (.decoder d) (.illegalOperation opcode))
  | some (.encoder e) => .next (s.finish (.encoder (op e).2) ((op e).1.map fun _ => none))

/-- Run a decode (R21, R71, R207): on a Decoder its outcome and effect; an Encoder answers IllegalOperation, unchanged;
no instance of that number, the machine stops. -/
def State.onDecoder (s : State) (opcode : Byte) (op : Decoder → Except Err Result × Decoder) :
    Host.Outcome State Fault Refusal :=
  match s.addressed with
  | none => .fault .noInstance
  | some (.encoder e) => .next (s.raise (.encoder e) (.illegalOperation opcode))
  | some (.decoder d) => .next (s.finish (.decoder (op d).2) ((op d).1.map some))

end Sys2Proof.Machine
end

