-- ==== Sys2Proof/Machine/Fixed.lean ====
section
/-! DEFINITION. The twenty fixed-width operations (40_fixed_width.md R100 to R121). Each only moves bits: a float or
double is its bit pattern (R124), a signed value its two's-complement bits (R122). -/

namespace Sys2Proof.Machine

/-- `FixedEncode(n, w)` (R100): the field's `n` bytes in one sink write. -/
def fixedEncode {m : Nat} (n : Nat) (w : BitVec m) (e : Encoder) : Except Err Unit × Encoder :=
  sinkWrite (beBytes n w) e

/-- `FixedDecode(n)` (R101): the field's `n` bytes in one source read, put together as a word of `m = 8n` bits, then
read as a result. -/
def fixedDecode (m n : Nat) (toResult : BitVec m → Result) (d : Decoder) : Except Err Result × Decoder :=
  ((srcRead n d).1.map fun bs => toResult (BitVec.ofNat m (fromBE bs)), (srcRead n d).2)

/-- A signed encode's operand outside the field's range cannot be written in a request (R68, D5). -/
def signedEncode (m n : Nat) (opcode : Byte) (v : Int) (s : State) : Host.Outcome State Fault Refusal :=
  if inSignedRange m v then s.onEncoder opcode (fixedEncode n (toBits m v)) else .refused .operandOutOfRange

/-- `enc.bool` (R102). -/
def execEncBool (v : Bool) (s : State) : Host.Outcome State Fault Refusal :=
  s.onEncoder 0x00 (fixedEncode 1 (boolByte v))

/-- `enc.u16` (R104). -/
def execEncU16 (v : Word16) (s : State) : Host.Outcome State Fault Refusal :=
  s.onEncoder 0x01 (fixedEncode 2 v)

/-- `enc.s16` (R106). -/
def execEncS16 (v : Int) (s : State) : Host.Outcome State Fault Refusal :=
  signedEncode 16 2 0x02 v s

/-- `enc.char` (R108): the raw code unit, not modified UTF-8. -/
def execEncChar (c : Word16) (s : State) : Host.Outcome State Fault Refusal :=
  s.onEncoder 0x03 (fixedEncode 2 c)

/-- `enc.u32` (R110). -/
def execEncU32 (v : Word32) (s : State) : Host.Outcome State Fault Refusal :=
  s.onEncoder 0x04 (fixedEncode 4 v)

/-- `enc.s32` (R112). -/
def execEncS32 (v : Int) (s : State) : Host.Outcome State Fault Refusal :=
  signedEncode 32 4 0x05 v s

/-- `enc.u64` (R114). -/
def execEncU64 (v : Word64) (s : State) : Host.Outcome State Fault Refusal :=
  s.onEncoder 0x06 (fixedEncode 8 v)

/-- `enc.s64` (R116). -/
def execEncS64 (v : Int) (s : State) : Host.Outcome State Fault Refusal :=
  signedEncode 64 8 0x07 v s

/-- `enc.f32` (R118): the bit pattern as it stands (90_conflicts.md C1). -/
def execEncF32 (w : Word32) (s : State) : Host.Outcome State Fault Refusal :=
  s.onEncoder 0x08 (fixedEncode 4 w)

/-- `enc.f64` (R120): the bit pattern as it stands. -/
def execEncF64 (w : Word64) (s : State) : Host.Outcome State Fault Refusal :=
  s.onEncoder 0x09 (fixedEncode 8 w)

/-- `dec.bool` (R103): nonzero is true. -/
def execDecBool (s : State) : Host.Outcome State Fault Refusal :=
  s.onDecoder 0x80 (fixedDecode 8 1 fun b => .bool (byteBool b))

/-- `dec.u16` (R105). -/
def execDecU16 (s : State) : Host.Outcome State Fault Refusal :=
  s.onDecoder 0x81 (fixedDecode 16 2 .word16)

/-- `dec.s16` (R107). -/
def execDecS16 (s : State) : Host.Outcome State Fault Refusal :=
  s.onDecoder 0x82 (fixedDecode 16 2 fun w => .int (toSigned w))

/-- `dec.char` (R109). -/
def execDecChar (s : State) : Host.Outcome State Fault Refusal :=
  s.onDecoder 0x83 (fixedDecode 16 2 .word16)

/-- `dec.u32` (R111). -/
def execDecU32 (s : State) : Host.Outcome State Fault Refusal :=
  s.onDecoder 0x84 (fixedDecode 32 4 .word32)

/-- `dec.s32` (R113). -/
def execDecS32 (s : State) : Host.Outcome State Fault Refusal :=
  s.onDecoder 0x85 (fixedDecode 32 4 fun w => .int (toSigned w))

/-- `dec.u64` (R115). -/
def execDecU64 (s : State) : Host.Outcome State Fault Refusal :=
  s.onDecoder 0x86 (fixedDecode 64 8 .word64)

/-- `dec.s64` (R117). -/
def execDecS64 (s : State) : Host.Outcome State Fault Refusal :=
  s.onDecoder 0x87 (fixedDecode 64 8 fun w => .int (toSigned w))

/-- `dec.f32` (R119): the bit pattern, a NaN's payload and a zero's sign kept. -/
def execDecF32 (s : State) : Host.Outcome State Fault Refusal :=
  s.onDecoder 0x88 (fixedDecode 32 4 .word32)

/-- `dec.f64` (R121): the bit pattern. -/
def execDecF64 (s : State) : Host.Outcome State Fault Refusal :=
  s.onDecoder 0x89 (fixedDecode 64 8 .word64)

end Sys2Proof.Machine
end

