-- ==== Sys2Proof/Machine/TextBody.lean ====
section
/-! DEFINITION. Modified UTF-8 (30_encoding.md R63 to R66; 41_text.md R140, R141, R144 to R149): the forms of one code
unit, and the scan of a body. In the source's expressions `&` binds tighter than `|` (R8, D27; log entry 17). -/

namespace Sys2Proof.Machine

/-! ## Encoding -/

/-- `EncUnit(c)` (R140): the 1-byte form for 0x0001..0x007F, the 2-byte form below 0x0800 and for 0, else the 3-byte
form. -/
def encUnit (c : Word16) : List Byte :=
  if c ≠ 0x0000#16 ∧ c < 0x0080#16 then
    [c.extractLsb' 0 8]
  else if c < 0x0800#16 then
    [0xC0#8 ||| ((c >>> 6) &&& 0x1F#16).setWidth 8, 0x80#8 ||| (c &&& 0x3F#16).setWidth 8]
  else
    [0xE0#8 ||| ((c >>> 12) &&& 0x0F#16).setWidth 8, 0x80#8 ||| ((c >>> 6) &&& 0x3F#16).setWidth 8,
      0x80#8 ||| (c &&& 0x3F#16).setWidth 8]

/-- `EncodeBody(t)` (R141): every unit's form, in input order. -/
def encodeBody (t : Text) : List Byte :=
  t.flatMap encUnit

/-! ## Decoding -/

/-- What a lead byte announces (R64). -/
inductive LeadClass where
  | one
  | two
  | three
  | invalid
  deriving DecidableEq, Repr

/-- The class of a lead byte, by its lead nibble `b[7:4]` (R64). -/
def leadClass (b : Byte) : LeadClass :=
  if (b.extractLsb' 4 4).toNat < 0x8 then .one
  else if (b.extractLsb' 4 4).toNat < 0xC then .invalid
  else if (b.extractLsb' 4 4).toNat < 0xE then .two
  else if (b.extractLsb' 4 4).toNat < 0xF then .three
  else .invalid

/-- A valid continuation byte: `b & 0xC0 = 0x80` (R65). -/
def isContinuation (b : Byte) : Bool :=
  decide (b &&& 0xC0#8 = 0x80#8)

/-- The code unit of a 1-byte form (R66, R145). -/
def unit1 (b0 : Byte) : Word16 :=
  b0.setWidth 16

/-- The code unit of a 2-byte form (R66, R146). -/
def unit2 (b0 b1 : Byte) : Word16 :=
  ((b0 &&& 0x1F#8).setWidth 16 <<< 6) ||| (b1 &&& 0x3F#8).setWidth 16

/-- The code unit of a 3-byte form (R66, R147). -/
def unit3 (b0 b1 b2 : Byte) : Word16 :=
  ((b0 &&& 0x0F#8).setWidth 16 <<< 12) ||| ((b1 &&& 0x3F#8).setWidth 16 <<< 6) ||| (b2 &&& 0x3F#8).setWidth 16

/-- Put one unit before the units of the rest of the body; an error discards it (R144). -/
def consUnit (u : Word16) (rest : Except Err Text) : Except Err Text :=
  rest.map (u :: ·)

/-- The scan of R144 from body index `i` on: the list holds the bytes from there to the body's end. A form that runs
past the end is Truncated before its continuation bytes are looked at (R149, D11). -/
def decodeBodyFrom (i : Nat) : List Byte → Except Err Text
  | [] => .ok []
  | b0 :: rest =>
    match leadClass b0 with
    | .one => consUnit (unit1 b0) (decodeBodyFrom (i + 1) rest)
    | .two =>
      match rest with
      | b1 :: rest1 =>
        if isContinuation b1 then consUnit (unit2 b0 b1) (decodeBodyFrom (i + 2) rest1)
        else .error (.malformedInput i .badContinuation)
      | [] => .error (.malformedInput i .truncated)
    | .three =>
      match rest with
      | b1 :: b2 :: rest2 =>
        if isContinuation b1 && isContinuation b2 then consUnit (unit3 b0 b1 b2) (decodeBodyFrom (i + 3) rest2)
        else .error (.malformedInput i .badContinuation)
      | _ => .error (.malformedInput i .truncated)
    | .invalid => .error (.malformedInput i .badLead)

/-- `DecodeBody(body)` (R144). -/
def decodeBody (body : List Byte) : Except Err Text :=
  decodeBodyFrom 0 body

end Sys2Proof.Machine
end

