-- ==== Sys2Proof/Machine/Text.lean ====
section
/-! DEFINITION. The two text operations (41_text.md R142, R143, R150). -/

namespace Sys2Proof.Machine

/-- The frame of a text: its length field and its body (R62). -/
def textFrame (t : Text) : List Byte :=
  beBytes Config.lengthBytes (BitVec.ofNat 16 (encodeBody t).length) ++ encodeBody t

/-- The steps of `enc.text` (R142): the length check on the whole body first (R143), then one write of the frame. -/
def textEncode (t : Text) (e : Encoder) : Except Err Unit × Encoder :=
  if Config.maxTextBytes < (encodeBody t).length then
    (.error (.lengthExceeded (encodeBody t).length), e)
  else
    sinkWrite (textFrame t) e

/-- The steps of `dec.text` (R150): the length field, then the whole body, then the scan. -/
def textDecode (d : Decoder) : Except Err Result × Decoder :=
  match srcRead Config.lengthBytes d with
  | (.error e, d1) => (.error e, d1)
  | (.ok p, d1) =>
    match srcRead (fromBE p) d1 with
    | (.error e, d2) => (.error e, d2)
    | (.ok body, d2) => ((decodeBody body).map Result.text, d2)

/-- `enc.text` (R142). -/
def execEncText (t : Text) (s : State) : Host.Outcome State Fault Refusal :=
  s.onEncoder 0x0A (textEncode t)

/-- `dec.text` (R150). -/
def execDecText (s : State) : Host.Outcome State Fault Refusal :=
  s.onDecoder 0x8A textDecode

end Sys2Proof.Machine
end

