-- ==== Sys2Proof/Machine/Dispatch.lean ====
section
/-! DEFINITION. Every instruction's meaning, one arm per row of spec/opcode_table.json. -/

namespace Sys2Proof.Machine

-- Runs one instruction on the instance numbered by the state's `target`.
def exec (i : Instr) (s : State) : Host.Outcome State Fault Refusal :=
  match i with
  | .encBool v => Sys2Proof.Machine.execEncBool v s
  | .encU16 v => Sys2Proof.Machine.execEncU16 v s
  | .encS16 v => Sys2Proof.Machine.execEncS16 v s
  | .encChar c => Sys2Proof.Machine.execEncChar c s
  | .encU32 v => Sys2Proof.Machine.execEncU32 v s
  | .encS32 v => Sys2Proof.Machine.execEncS32 v s
  | .encU64 v => Sys2Proof.Machine.execEncU64 v s
  | .encS64 v => Sys2Proof.Machine.execEncS64 v s
  | .encF32 w => Sys2Proof.Machine.execEncF32 w s
  | .encF64 w => Sys2Proof.Machine.execEncF64 w s
  | .encText t => Sys2Proof.Machine.execEncText t s
  | .decBool => Sys2Proof.Machine.execDecBool s
  | .decU16 => Sys2Proof.Machine.execDecU16 s
  | .decS16 => Sys2Proof.Machine.execDecS16 s
  | .decChar => Sys2Proof.Machine.execDecChar s
  | .decU32 => Sys2Proof.Machine.execDecU32 s
  | .decS32 => Sys2Proof.Machine.execDecS32 s
  | .decU64 => Sys2Proof.Machine.execDecU64 s
  | .decS64 => Sys2Proof.Machine.execDecS64 s
  | .decF32 => Sys2Proof.Machine.execDecF32 s
  | .decF64 => Sys2Proof.Machine.execDecF64 s
  | .decText => Sys2Proof.Machine.execDecText s

end Sys2Proof.Machine
end

