-- ==== Sys2Proof/Machine/Fetch.lean ====
section
/-! DEFINITION. Taking the host's next action (60_exceptions.md R214): attaching an instance, or reading a request up
to the instruction it names. Requests are calls from the host, not words fetched from a memory (20_memory.md R58). -/

namespace Sys2Proof.Machine

/-- What the host's next action comes to. -/
inductive Fetched where
  /-- Nothing is asked of the machine: it stays as it is. -/
  | idle
  /-- The action is complete: an attach, or a request answered IllegalOperation. -/
  | done (s : State)
  /-- A request that names an instruction, in the state it runs in. -/
  | run (i : Instr) (s : State)
  | fault (f : Fault)
  | refused (r : Refusal)
  deriving DecidableEq, Repr

/-- Read a request issued to the instance numbered `s.target` (R28, R70, R71). A reserved opcode, or one of the other
direction, raises IllegalOperation before anything else (R207); an operand the opcode does not take is refused. -/
def issue (r : Request) (s : State) : Fetched :=
  match s.addressed with
  | none => .fault .noInstance
  | some x =>
    match decode r with
    | .ok i => .run i s
    | .error (.reservedOpcode opcode) => .done (s.raise x (.illegalOperation opcode))
    | .error (.operandMismatch opcode) =>
      if directionOf opcode = x.direction then .refused (.operandMismatch opcode)
      else .done (s.raise x (.illegalOperation opcode))

/-- Take the host's next action (R214). -/
def fetch (s : State) : Fetched :=
  match s.host with
  | [] => .idle
  | .attachEncoder scheduled :: rest => .done ({ s with host := rest }.attachEncoder scheduled)
  | .attachDecoder inp0 scheduled :: rest => .done ({ s with host := rest }.attachDecoder inp0 scheduled)
  | .request inst r :: rest => issue r { s with host := rest, target := inst }
  | .overlap _ _ _ :: _ => .refused .overlappingRequests

/-- Attach an instance that takes requests of the given direction, with nothing scheduled and nothing to deliver. -/
def State.attachFor (s : State) : Direction → State
  | .enc => s.attachEncoder []
  | .dec => s.attachDecoder [] []

/-- Make a request the host's very next action, on an instance attached for it (log entries 4 and 18). -/
def State.withNextRequest (s : State) (r : Request) : State :=
  { s.attachFor (directionOf r.opcode) with host := .request s.instances.length r :: s.host }

end Sys2Proof.Machine
end

