-- ==== Sys2Proof/Machine/Step.lean ====
section
/-! DEFINITION. One step of the machine: take the host's next action and, where it is a request that names an
instruction, run it (10_state.md R21, 20_memory.md R52). -/

namespace Sys2Proof.Machine

/-- One step. With nothing asked of it the machine stays as it is (log entry 5). -/
def step (s : State) : Host.Outcome State Fault Refusal :=
  match fetch s with
  | .idle => .next s
  | .done s' => .next s'
  | .run i s' => exec i s'
  | .fault f => .fault f
  | .refused r => .refused r

/-- The state whose very next step runs the instruction of an opcode-table row: the host attaches an instance of the
opcode's direction and its next action is the request, with operand bits zero (log entries 4 and 18). -/
def State.withFetchWord (s : State) (_nbits w : Nat) : State :=
  s.withNextRequest (requestOfOpcode (BitVec.ofNat 8 w))

end Sys2Proof.Machine
end

