-- ==== Sys2Proof/Machine/Assembler.lean ====
section
/-! DEFINITION. The spec's assembly language (30_encoding.md R76, R77): one request a line, `mnemonic [operand]`, `;` to
the end of the line a comment. A line assembles to the opcode byte of R68 and its operand; there are no
pseudo-instructions. What R76 leaves open of spacing, digits and signs is log entry 19, of line ends log entry 23. -/

namespace Sys2Proof.Machine

/-- Why a line is no request. -/
inductive AsmError where
  | unknownMnemonic
  | badOperand
  | trailingText
  deriving DecidableEq, Repr

/-! ## Mnemonics -/

/-- The type part of a mnemonic (R68). -/
def typeName : WireType → String
  | .bool => "bool"
  | .u16 => "u16"
  | .s16 => "s16"
  | .char => "char"
  | .u32 => "u32"
  | .s32 => "s32"
  | .u64 => "u64"
  | .s64 => "s64"
  | .f32 => "f32"
  | .f64 => "f64"
  | .text => "text"

/-- The mnemonic of an operation, `enc.<type>` or `dec.<type>` (R68). -/
def mnemonicOf (d : Direction) (t : WireType) : List Char :=
  (match d with
    | .enc => "enc.".toList
    | .dec => "dec.".toList) ++ (typeName t).toList

/-- The 22 operations. -/
def operations : List (Direction × WireType) :=
  WireType.all.map (fun t => (Direction.enc, t)) ++ WireType.all.map (fun t => (Direction.dec, t))

/-- The operation a mnemonic names. -/
def operationNamed (word : List Char) : Option (Direction × WireType) :=
  operations.find? fun op => decide (mnemonicOf op.1 op.2 = word)

/-! ## Characters and literals -/

/-- A space or a tab. -/
def isBlank (c : Char) : Bool :=
  c.toNat == 0x20 || c.toNat == 0x09

/-- The text after leading blanks. -/
def skipBlanks (cs : List Char) : List Char :=
  cs.dropWhile isBlank

/-- Nothing but blanks and a comment is left of the line. -/
def lineEnds (cs : List Char) : Bool :=
  match skipBlanks cs with
  | [] => true
  | c :: _ => c == ';'

/-- The value of a decimal digit. -/
def decimalDigit (c : Char) : Option Nat :=
  if 0x30 ≤ c.toNat ∧ c.toNat ≤ 0x39 then some (c.toNat - 0x30) else none

/-- The value of a hexadecimal digit, of either case. -/
def hexDigit (c : Char) : Option Nat :=
  if 0x30 ≤ c.toNat ∧ c.toNat ≤ 0x39 then some (c.toNat - 0x30)
  else if 0x41 ≤ c.toNat ∧ c.toNat ≤ 0x46 then some (c.toNat - 0x41 + 10)
  else if 0x61 ≤ c.toNat ∧ c.toNat ≤ 0x66 then some (c.toNat - 0x61 + 10)
  else none

/-- The leading digits, by value, and what follows them. -/
def spanDigits (digit : Char → Option Nat) : List Char → List Nat × List Char
  | [] => ([], [])
  | c :: cs =>
    match digit c with
    | some v => (v :: (spanDigits digit cs).1, (spanDigits digit cs).2)
    | none => ([], c :: cs)

/-- The number a digit string stands for. -/
def digitsValue (base : Nat) (ds : List Nat) : Nat :=
  ds.foldl (fun acc v => acc * base + v) 0

/-- A hexadecimal literal `0x..` of one to `most` digits, "of at most the field's width". -/
def hexLiteral (most : Nat) : List Char → Option (Nat × List Char)
  | '0' :: 'x' :: cs =>
    if (spanDigits hexDigit cs).1 ≠ [] ∧ (spanDigits hexDigit cs).1.length ≤ most then
      some (digitsValue 16 (spanDigits hexDigit cs).1, (spanDigits hexDigit cs).2)
    else
      none
  | _ => none

/-- An unsigned decimal literal. -/
def decimalLiteral (cs : List Char) : Option (Nat × List Char) :=
  if (spanDigits decimalDigit cs).1 ≠ [] then
    some (digitsValue 10 (spanDigits decimalDigit cs).1, (spanDigits decimalDigit cs).2)
  else
    none

/-- A signed decimal literal. -/
def signedLiteral : List Char → Option (Int × List Char)
  | '-' :: cs => (decimalLiteral cs).map fun p => (-(p.1 : Int), p.2)
  | cs => (decimalLiteral cs).map fun p => ((p.1 : Int), p.2)

/-! ## Operands -/

/-- The bit pattern of a signed operand of `n` bits: a hexadecimal literal read as the pattern, or a signed decimal
literal in range. -/
def signedOperand (n : Nat) (cs : List Char) : Option (BitVec n × List Char) :=
  match hexLiteral (n / 4) cs with
  | some p => some (BitVec.ofNat n p.1, p.2)
  | none =>
    match signedLiteral cs with
    | some p => if inSignedRange n p.1 then some (toBits n p.1, p.2) else none
    | none => none

/-- The code units between brackets, after the opening one; `fuel` bounds the count of units. -/
def unitList : Nat → List Char → Option (Text × List Char)
  | 0, _ => none
  | fuel + 1, cs =>
    match hexLiteral 4 (skipBlanks cs) with
    | none => none
    | some p =>
      match skipBlanks p.2 with
      | ']' :: rest => some ([BitVec.ofNat 16 p.1], rest)
      | ',' :: rest => (unitList fuel rest).map fun q => (BitVec.ofNat 16 p.1 :: q.1, q.2)
      | _ => none

/-- The characters of a quoted text, after the opening quote, each printable ASCII other than the quote and the
backslash and standing for its own code unit. -/
def quotedUnits : List Char → Option (Text × List Char)
  | [] => none
  | c :: cs =>
    if c.toNat = 0x22 then some ([], cs)
    else if 0x20 ≤ c.toNat ∧ c.toNat ≤ 0x7E ∧ c.toNat ≠ 0x5C then
      (quotedUnits cs).map fun q => (BitVec.ofNat 16 c.toNat :: q.1, q.2)
    else none

/-- A text operand: a bracketed list, possibly empty, or a quoted text. -/
def textOperand : List Char → Option (Text × List Char)
  | [] => none
  | c :: cs =>
    if c.toNat = 0x22 then quotedUnits cs
    else if c = '[' then
      match skipBlanks cs with
      | ']' :: rest => some ([], rest)
      | _ => unitList cs.length cs
    else none

/-- The operand of a boolean encode. -/
def boolOperand (cs : List Char) : Option (Bool × List Char) :=
  if "true".toList.isPrefixOf cs then some (true, cs.drop 4)
  else if "false".toList.isPrefixOf cs then some (false, cs.drop 5)
  else none

/-- The operand an operation takes, and what follows it on the line. -/
def parseOperand : Direction → WireType → List Char → Option (Operand × List Char)
  | .dec, _, cs => some (.none, cs)
  | .enc, .bool, cs => (boolOperand cs).map fun p => (.bool p.1, p.2)
  | .enc, .u16, cs | .enc, .char, cs => (hexLiteral 4 cs).map fun p => (.word16 (BitVec.ofNat 16 p.1), p.2)
  | .enc, .u32, cs | .enc, .f32, cs => (hexLiteral 8 cs).map fun p => (.word32 (BitVec.ofNat 32 p.1), p.2)
  | .enc, .u64, cs | .enc, .f64, cs => (hexLiteral 16 cs).map fun p => (.word64 (BitVec.ofNat 64 p.1), p.2)
  | .enc, .s16, cs => (signedOperand 16 cs).map fun p => (.word16 p.1, p.2)
  | .enc, .s32, cs => (signedOperand 32 cs).map fun p => (.word32 p.1, p.2)
  | .enc, .s64, cs => (signedOperand 64 cs).map fun p => (.word64 p.1, p.2)
  | .enc, .text, cs => (textOperand cs).map fun p => (.text p.1, p.2)

/-- The first word of a line. -/
def firstWord (cs : List Char) : List Char :=
  cs.takeWhile fun c => !(isBlank c || c == ';')

/-- Assemble one line: no request for a blank or comment line, else the request it writes (R76). -/
def assembleLine (line : List Char) : Except AsmError (Option Request) :=
  if lineEnds line then .ok none
  else
    match operationNamed (firstWord (skipBlanks line)) with
    | none => .error .unknownMnemonic
    | some (d, t) =>
      match parseOperand d t (skipBlanks ((skipBlanks line).drop (firstWord (skipBlanks line)).length)) with
      | none => .error .badOperand
      | some (o, rest) => if lineEnds rest then .ok (some ⟨opcodeOf d t, o⟩) else .error .trailingText

/-! ## Programs -/

/-- The lines of a source text. DESIGN CHOICE (safe; log entry 23): R76 says "one request per line" and not what ends a line;
here a line feed (0x0A) alone does, and a carriage return is neither a line end nor a blank. -/
def splitLines : List Char → List (List Char)
  | [] => [[]]
  | c :: cs =>
    if c.toNat = 0x0A then [] :: splitLines cs
    else
      match splitLines cs with
      | [] => [[c]]
      | l :: ls => (c :: l) :: ls

/-- The requests of some lines, in order; the first bad line decides the error. -/
def assembleLines : List (List Char) → Except AsmError (List Request)
  | [] => .ok []
  | l :: ls =>
    match assembleLine l with
    | .error e => .error e
    | .ok r => (assembleLines ls).map (r.toList ++ ·)

/-- Assemble a program, one request a line (R76; a program is a list of requests, 10_state.md R24). -/
def assemble (source : List Char) : Except AsmError (List Request) :=
  assembleLines (splitLines source)

end Sys2Proof.Machine
end

