-- ==== Sys2Proof/Safety.lean ====
section
/-! DEFINITION. The terms claims are stated in: what a run must keep, what a lawful host does, and, written a second time
from the spec's tables, what each kind of operation does. -/

namespace Sys2Proof.Machine

/-! ## The invariant -/

/-- A decoded value lies in the range its operation can give: an integer in a signed range of 64 bits (R68), a text of at
most 65535 units (R151). -/
def Result.wellFormed : Result → Prop
  | .int v => inSignedRange 64 v = true
  | .text t => t.length ≤ 65535
  | .bool _ | .word16 _ | .word32 _ | .word64 _ => True

/-- An error's info is one its operation can record: a short read had fewer bytes than it needed, and never needs more
than a text body (R201); a malformed form starts inside the body (R202); the length exceeded the bound (R203). -/
def Err.wellFormed : Err → Prop
  | .shortRead needed available => available < needed ∧ needed ≤ 65535
  | .malformedInput offset _ => offset < 65535
  | .lengthExceeded length => 65535 < length
  | .ioFailure _ | .illegalOperation _ => True

/-- A response the block can give. -/
def Response.wellFormed : Response → Prop
  | .ok (some r) => r.wellFormed
  | .ok none => True
  | .error e => e.wellFormed

/-- What every step keeps, from any state: a Decoder's remaining source is a tail of what it had at attach (R23), every
instance stands on a stream of its own (R57), and every response in the log comes from an attached instance and is one
the block can give. -/
structure State.Inv (s : State) : Prop where
  tails   : ∀ (n : Nat) (d : Decoder), s.instances[n]? = some (Instance.decoder d) → d.inp <:+ d.inp0
  streams : ∀ (n : Nat) (x : Instance), s.instances[n]? = some x → x.stream.id = n
  replies : ∀ p ∈ s.replies, p.inst < s.instances.length ∧ p.response.wellFormed

/-- How an instance may change over a step: it keeps its kind and its stream (R250); an Encoder's `out` only grows (R22);
a Decoder's `inp` only shrinks, from the front (R23). -/
def Instance.evolvesTo : Instance → Instance → Prop
  | .encoder e, .encoder e' => e.out <+: e'.out ∧ e'.sink.id = e.sink.id
  | .decoder d, .decoder d' => d'.inp <:+ d.inp ∧ d'.inp0 = d.inp0 ∧ d'.source.id = d.source.id
  | _, _ => False

/-! ## A lawful host -/

/-- The host keeps its duties in this action (R214, R252, R254): it does not overlap requests, it has attached the
instance it asks, and an operand it sends has the type the opcode takes. -/
def HostAction.lawful (s : State) : HostAction → Prop
  | .attachEncoder _ | .attachDecoder _ _ => True
  | .overlap _ _ _ => False
  | .request n r => n < s.instances.length ∧ decode r ≠ .error (.operandMismatch r.opcode)

/-! ## What an operation does, written from the spec's rules -/

/-- The state after the addressed instance has become `x` and answered `r`: everything else as it was (R208, R213). -/
def State.afterReply (s : State) (x : Instance) (r : Response) : State where
  instances := s.instances.set s.target x
  host := s.host
  target := s.target
  replies := s.replies ++ [Reply.mk s.target r]

/-- `i` on an Encoder whose sink serves the call appends exactly `wire` in one write and answers OK (R45, R47). -/
def Writes (i : Instr) (wire : List Byte) : Prop :=
  ∀ (s : State) (e : Encoder), s.addressed = some (.encoder e) → e.sink.sinkAnswer = .normal →
    exec i s = .next (s.afterReply (.encoder ⟨e.out ++ wire, e.sink.answered⟩) (.ok none))

/-- `i` on an Encoder whose sink fails with `err` after `k` bytes leaves exactly the first `k` bytes of `wire` appended
and answers IOFailure(err) (R46, R204); a draw beyond the wire image stands for all of it (log entry 3). -/
def WriteFails (i : Instr) (wire : List Byte) : Prop :=
  ∀ (s : State) (e : Encoder) (err : IOErr) (k : Nat), s.addressed = some (.encoder e) →
    e.sink.sinkAnswer = .fail err k →
    exec i s = .next (s.afterReply (.encoder ⟨e.out ++ wire.take k, e.sink.answered⟩) (.error (.ioFailure err)))

/-- `i` on a Decoder whose source starts with `bytes` and serves the call takes exactly those and answers OK with `r`
(R41). -/
def Reads (i : Instr) (bytes : List Byte) (r : Result) : Prop :=
  ∀ (s : State) (d : Decoder) (rest : List Byte), s.addressed = some (.decoder d) →
    d.source.srcAnswer = .normal → d.inp = bytes ++ rest →
    exec i s = .next (s.afterReply (.decoder ⟨d.inp0, rest, d.source.answered⟩) (.ok (some r)))

/-- `i` on a Decoder with fewer than `n` bytes left answers ShortRead(n, |inp|) and leaves the source at its end (R42,
R201). -/
def ReadsShort (i : Instr) (n : Nat) : Prop :=
  ∀ (s : State) (d : Decoder), s.addressed = some (.decoder d) → d.source.srcAnswer = .normal →
    d.inp.length < n →
    exec i s = .next
      (s.afterReply (.decoder ⟨d.inp0, [], d.source.answered⟩) (.error (.shortRead n d.inp.length)))

/-- `i` on a Decoder whose source fails with `err` after `k` of the `n` bytes drops those and answers IOFailure(err) (R43,
R204); a draw beyond `n` stands for `n` (log entry 3). -/
def ReadFails (i : Instr) (n : Nat) : Prop :=
  ∀ (s : State) (d : Decoder) (err : IOErr) (k : Nat), s.addressed = some (.decoder d) →
    d.source.srcAnswer = .fail err k →
    exec i s = .next
      (s.afterReply (.decoder ⟨d.inp0, d.inp.drop (min k n), d.source.answered⟩) (.error (.ioFailure err)))

/-- The form of a code unit by the bit fields of R63's table. -/
def formByFields (c : Word16) : List Byte :=
  if 0x0001 ≤ c.toNat ∧ c.toNat ≤ 0x007F then
    [0#1 ++ c.extractLsb' 0 7]
  else if c.toNat ≤ 0x07FF then
    [0b110#3 ++ c.extractLsb' 6 5, 0b10#2 ++ c.extractLsb' 0 6]
  else
    [0b1110#4 ++ c.extractLsb' 12 4, 0b10#2 ++ c.extractLsb' 6 6, 0b10#2 ++ c.extractLsb' 0 6]

/-- The length of a code unit's form, by R141. -/
def formLength (c : Word16) : Nat :=
  if c.toNat = 0 then 2 else if c.toNat ≤ 0x007F then 1 else if c.toNat ≤ 0x07FF then 2 else 3

/-- `L(t)` (R141). -/
def textLength (t : Text) : Nat :=
  (t.map formLength).sum

/-- R144's loop as the spec writes it, over a body index and the units so far; `fuel` bounds the turns. -/
def bodyLoop (body : List Byte) : Nat → Nat → Text → Except Err Text
  | 0, _, units => .ok units
  | fuel + 1, i, units =>
    if i < body.length then
      let b0 := body.getD i 0
      let b1 := body.getD (i + 1) 0
      let b2 := body.getD (i + 2) 0
      let nibble := b0.toNat / 16
      if nibble ≤ 0x7 then
        bodyLoop body fuel (i + 1) (units ++ [b0.setWidth 16])
      else if 0xC ≤ nibble ∧ nibble ≤ 0xD then
        if i + 2 > body.length then .error (.malformedInput i .truncated)
        else if b1 &&& 0xC0#8 ≠ 0x80#8 then .error (.malformedInput i .badContinuation)
        else bodyLoop body fuel (i + 2) (units ++ [0#5 ++ b0.extractLsb' 0 5 ++ b1.extractLsb' 0 6])
      else if nibble = 0xE then
        if i + 3 > body.length then .error (.malformedInput i .truncated)
        else if b1 &&& 0xC0#8 ≠ 0x80#8 then .error (.malformedInput i .badContinuation)
        else if b2 &&& 0xC0#8 ≠ 0x80#8 then .error (.malformedInput i .badContinuation)
        else bodyLoop body fuel (i + 3) (units ++ [b0.extractLsb' 0 4 ++ b1.extractLsb' 0 6 ++ b2.extractLsb' 0 6])
      else .error (.malformedInput i .badLead)
    else .ok units

/-- The whole wire image an encode hands its sink (R47, R51, R62), and none where the length bound stops it (R143) or the
operation is a decode. -/
def wireImage : Instr → Option (List Byte)
  | .encBool v => some [boolByte v]
  | .encU16 v | .encChar v => some (beBytes 2 v)
  | .encS16 v => some (beBytes 2 (toBits 16 v))
  | .encU32 v | .encF32 v => some (beBytes 4 v)
  | .encS32 v => some (beBytes 4 (toBits 32 v))
  | .encU64 v | .encF64 v => some (beBytes 8 v)
  | .encS64 v => some (beBytes 8 (toBits 64 v))
  | .encText t => if 65535 < (encodeBody t).length then none else some (textFrame t)
  | .decBool | .decU16 | .decS16 | .decChar | .decU32 | .decS32 | .decU64 | .decS64 | .decF32 | .decF64
  | .decText => none

/-- How many bytes of a wire image of `n` bytes the sink has accepted when it answers so (R45, R46). -/
def acceptedBytes (n : Nat) : StreamAnswer → Nat
  | .normal => n
  | .fail _ k => min k n

/-- The bytes of a 16-bit field by R60's table. -/
def bytes16 (w : Word16) : List Byte :=
  [w.extractLsb' 8 8, w.extractLsb' 0 8]

/-- The bytes of a 32-bit field by R60's table. -/
def bytes32 (w : Word32) : List Byte :=
  [w.extractLsb' 24 8, w.extractLsb' 16 8, w.extractLsb' 8 8, w.extractLsb' 0 8]

/-- The bytes of a 64-bit field by R60's table. -/
def bytes64 (w : Word64) : List Byte :=
  [w.extractLsb' 56 8, w.extractLsb' 48 8, w.extractLsb' 40 8, w.extractLsb' 32 8,
    w.extractLsb' 24 8, w.extractLsb' 16 8, w.extractLsb' 8 8, w.extractLsb' 0 8]

/-- An encode on a serving sink writes some bytes that a decode then reads back as `r`, whatever follows them (R125). -/
def RoundTrips (i j : Instr) (r : Result) : Prop :=
  ∃ bytes, Writes i bytes ∧ Reads j bytes r

/-- R76's hexadecimal digits, each at the place of its value: those of lower case. -/
def lowerHexDigits : List Char :=
  ['0', '1', '2', '3', '4', '5', '6', '7', '8', '9', 'a', 'b', 'c', 'd', 'e', 'f']

/-- The hexadecimal digits of upper case, each at the place of its value. -/
def upperHexDigits : List Char :=
  ['0', '1', '2', '3', '4', '5', '6', '7', '8', '9', 'A', 'B', 'C', 'D', 'E', 'F']

/-- The characters spell the digit values, one each, in either case (log entry 19). -/
def spellsHex (cs : List Char) (ds : List Nat) : Prop :=
  List.Forall₂ (fun c d => lowerHexDigits[d]? = some c ∨ upperHexDigits[d]? = some c) cs ds

/-- The number hexadecimal digits stand for: each weighs 16 to the count of digits after it. -/
def hexValue : List Nat → Nat
  | [] => 0
  | d :: ds => d * 16 ^ ds.length + hexValue ds

/-- Which errors an operation can raise (R200's table). -/
def mayRaise (i : Instr) : Err → Prop
  | .shortRead _ _ => i.direction = .dec
  | .malformedInput _ _ => i = .decText
  | .lengthExceeded _ => i.wireType = .text ∧ i.direction = .enc
  | .ioFailure _ => True
  | .illegalOperation opcode => opcode = i.opcode

end Sys2Proof.Machine
end

