-- ==== Sys2Proof/Certificates/Slice0/Obligations.lean ====
section
/-! DEFINITION. The statements for the provers, from the numbered rules of spec/. Each docstring names the rule it
formalises; a clause that rests on a choice of the model's own names its log entry. -/

open Sys2Proof Sys2Proof.Machine

/-! ## Reset, the host and the step -/

/-- The model's choice (log entries 4, 5, 9, 10), resting on R250 and R251: before any attach there is no instance, no
request in progress and no response. -/
def Obligations.ResetStartsEmpty : Prop :=
  State.reset.instances = [] ∧ State.reset.host = [] ∧ State.reset.target = 0 ∧ State.reset.replies = []

/-- The invariant of `StepKeepsInvariant` holds right after reset. -/
def Obligations.ResetMeetsInvariant : Prop :=
  State.reset.Inv

/-- The model's choice (log entry 5): with nothing asked of it, the machine stays as it is. -/
def Obligations.IdleStepChangesNothing : Prop :=
  ∀ s : State, s.host = [] → step s = .next s

/-- R250 and R32: attaching creates an Encoder with `out = []`, or a Decoder with `inp = inp0`, and touches nothing else.
The new instance's number and its stream's are the model's choice (log entry 12). -/
def Obligations.AttachGivesResetState : Prop :=
  ∀ (s : State) (scheduled : List StreamAnswer) (rest : List HostAction),
    (s.host = .attachEncoder scheduled :: rest →
      step s = .next ⟨s.instances ++ [.encoder ⟨[], ⟨s.instances.length, 0, scheduled⟩⟩],
        rest, s.target, s.replies⟩) ∧
    (∀ inp0 : List Byte, s.host = .attachDecoder inp0 scheduled :: rest →
      step s = .next ⟨s.instances ++ [.decoder ⟨inp0, inp0, ⟨s.instances.length, 0, scheduled⟩⟩],
        rest, s.target, s.replies⟩)

/-- A request that decodes, issued to an attached instance, is one step: the instruction it names, run on that instance
(R21, R28, R52); and what is decoded is well formed. -/
def Obligations.StepRunsDecodedRequest : Prop :=
  ∀ (s : State) (n : Nat) (r : Request) (rest : List HostAction) (i : Instr),
    s.host = .request n r :: rest → n < s.instances.length → decode r = .ok i →
      step s = exec i ⟨s.instances, rest, n, s.replies⟩ ∧ i.wellFormed = true

/-- R59: two requests to one instance that overlap in time are refused, and the machine has no step for them. -/
def Obligations.OverlapIsRefused : Prop :=
  ∀ (s : State) (n : Nat) (r₁ r₂ : Request) (rest : List HostAction),
    s.host = .overlap n r₁ r₂ :: rest → step s = .refused .overlappingRequests

/-- The model's stops for what R68, R214 and R252 exclude (log entries 6, 7, 8): a request to an instance never attached
faults; an operand of a type the opcode does not take is refused; a signed operand out of range is refused. -/
def Obligations.UnwritableRequestsStop : Prop :=
  (∀ (s : State) (n : Nat) (r : Request) (rest : List HostAction),
    s.host = .request n r :: rest → s.instances.length ≤ n → step s = .fault .noInstance) ∧
  (∀ (s : State) (n : Nat) (r : Request) (rest : List HostAction) (x : Instance),
    s.host = .request n r :: rest → s.instances[n]? = some x → directionOf r.opcode = x.direction →
      decode r = .error (.operandMismatch r.opcode) → step s = .refused (.operandMismatch r.opcode)) ∧
  (∀ (s : State) (v : Int),
    (¬ (-32768 ≤ v ∧ v ≤ 32767) → exec (.encS16 v) s = .refused .operandOutOfRange) ∧
    (¬ (-2147483648 ≤ v ∧ v ≤ 2147483647) → exec (.encS32 v) s = .refused .operandOutOfRange) ∧
    (¬ (-9223372036854775808 ≤ v ∧ v ≤ 9223372036854775807) → exec (.encS64 v) s = .refused .operandOutOfRange))

/-- R70: every opcode byte with Z not 000 or T in 0xB..0xF is reserved, 234 of them; a request with one, whatever its
operand, gets IllegalOperation(opcode) with no instance touched. -/
def Obligations.ReservedOpcodesRaiseIllegalOperation : Prop :=
  (∀ opcode : Byte, decodeOpcode opcode = none ↔
    (opcode.extractLsb' 4 3 ≠ 0 ∨ 0xB ≤ (opcode.extractLsb' 0 4).toNat)) ∧
  ((List.range 256).filter fun n => (decodeOpcode (BitVec.ofNat 8 n)).isNone).length = 234 ∧
  (∀ (s : State) (n : Nat) (r : Request) (rest : List HostAction),
    s.host = .request n r :: rest → n < s.instances.length → decodeOpcode r.opcode = none →
      step s = .next ⟨s.instances, rest, n, s.replies ++ [⟨n, .error (.illegalOperation r.opcode)⟩]⟩)

/-- R71: a request with D = 1 to an Encoder, or D = 0 to a Decoder, gets IllegalOperation(opcode) with no instance
touched, whatever its type code and operand. -/
def Obligations.WrongDirectionRaisesIllegalOperation : Prop :=
  ∀ (s : State) (n : Nat) (r : Request) (rest : List HostAction),
    s.host = .request n r :: rest →
      ((r.opcode.getLsbD 7 = true ∧ ∃ e, s.instances[n]? = some (.encoder e)) ∨
        (r.opcode.getLsbD 7 = false ∧ ∃ d, s.instances[n]? = some (.decoder d))) →
      step s = .next ⟨s.instances, rest, n, s.replies ++ [⟨n, .error (.illegalOperation r.opcode)⟩]⟩

/-- R205 and R71 for the meanings: an instruction run on an instance of the other direction answers IllegalOperation with
its own opcode, before any stream call, and changes no instance. -/
def Obligations.MisdirectedInstructionChangesNothing : Prop :=
  ∀ (i : Instr) (s : State) (x : Instance), i.wellFormed = true → s.addressed = some x →
    i.direction ≠ x.direction →
      exec i s = .next ⟨s.instances, s.host, s.target,
        s.replies ++ [⟨s.target, .error (.illegalOperation (encode i).opcode)⟩]⟩

/-! ## Encodings -/

/-- Decoding an encoded well-formed instruction gives it back, with every operand at every value (R67 to R69). -/
def Obligations.DecodeEncodeAgree : Prop :=
  ∀ i : Instr, i.wellFormed = true → decode (encode i) = .ok i

/-- Each request has one meaning: what decodes is the encoding of what it decodes to. -/
def Obligations.EncodeDecodeAgree : Prop :=
  ∀ (r : Request) (i : Instr), decode r = .ok i → encode i = r ∧ i.wellFormed = true

/-- R67: the opcode byte of every instruction is `D000TTTT`, D its direction and TTTT its type's code. -/
def Obligations.OpcodeByteFields : Prop :=
  ∀ i : Instr, (encode i).opcode.getLsbD 7 = decide (i.direction = .dec) ∧
    (encode i).opcode.extractLsb' 4 3 = 0 ∧ (encode i).opcode.extractLsb' 0 4 = BitVec.ofNat 4 i.wireType.code

/-- Some requests written out from R68's table, one of each family. -/
def Obligations.SampleRequestsDecode : Prop :=
  decode ⟨0b00000000, .bool true⟩ = .ok (.encBool true) ∧
  decode ⟨0b00000010, .word16 0xFFFE⟩ = .ok (.encS16 (-2)) ∧
  decode ⟨0b00001000, .word32 0x7FC00000⟩ = .ok (.encF32 0x7FC00000) ∧
  decode ⟨0b00001010, .text [0x0048, 0x0000]⟩ = .ok (.encText [0x0048, 0x0000]) ∧
  decode ⟨0b10000111, .none⟩ = .ok .decS64 ∧
  decode ⟨0b10001010, .none⟩ = .ok .decText

/-- `toSigned_N` and `toBits_N` are given by R10's formulas, and undo each other on the signed range. That these are
two's complement is the spec's own reading ("from general knowledge, not in source", D19; log entry 17). -/
def Obligations.SignedBitsAreTwosComplement : Prop :=
  ∀ n : Nat, 1 ≤ n →
    (∀ w : BitVec n, inSignedRange n (toSigned w) = true ∧ toBits n (toSigned w) = w ∧
      toSigned w = if w.toNat < 2 ^ (n - 1) then (w.toNat : Int) else (w.toNat : Int) - 2 ^ n) ∧
    (∀ i : Int, inSignedRange n i = true → toSigned (toBits n i) = i ∧ ((toBits n i).toNat : Int) = i % 2 ^ n)

/-- R9: `BE_n` lists the bytes of a word of `8n` bits, most significant first; `fromBE` is the weighted sum of the bytes;
each undoes the other. -/
def Obligations.BigEndianBytes : Prop :=
  ∀ n : Nat,
    (∀ w : BitVec (8 * n), (beBytes n w).length = n ∧
      (∀ k, k < n → (beBytes n w)[k]? = some (w.extractLsb' (8 * (n - 1 - k)) 8)) ∧
      fromBE (beBytes n w) = w.toNat) ∧
    (∀ bs : List Byte, bs.length = n →
      fromBE bs = ∑ k ∈ Finset.range n, (bs.getD k 0).toNat * 2 ^ (8 * (n - 1 - k)) ∧
      beBytes n (BitVec.ofNat (8 * n) (fromBE bs)) = bs)

/-! ## Stream primitives -/

/-- From R41, R42, R43: what `SrcRead(n)` returns and leaves for each answer of the source; every draw `k` in range is
admitted. That one out of range is cut to it is the model's choice (log entry 3). A zero-length read makes no call, by R44,
the spec's own decision D7 (log entry 15). -/
def Obligations.SourceReads : Prop :=
  ∀ (n : Nat) (d : Decoder),
    (1 ≤ n → d.source.srcAnswer = .normal → n ≤ d.inp.length →
      srcRead n d = (.ok (d.inp.take n), ⟨d.inp0, d.inp.drop n, d.source.answered⟩)) ∧
    (1 ≤ n → d.source.srcAnswer = .normal → d.inp.length < n →
      srcRead n d = (.error (.shortRead n d.inp.length), ⟨d.inp0, [], d.source.answered⟩)) ∧
    (∀ e k, 1 ≤ n → d.source.srcAnswer = .fail e k →
      srcRead n d = (.error (.ioFailure e),
        ⟨d.inp0, d.inp.drop (if k ≤ min n d.inp.length then k else min n d.inp.length), d.source.answered⟩)) ∧
    srcRead 0 d = (.ok [], d)

/-- From R45 and R46: what `SinkWrite(bs)` leaves for each answer of the sink; every draw `k` in range is admitted. That one
out of range is cut to it is the model's choice (log entry 3). -/
def Obligations.SinkWrites : Prop :=
  ∀ (bs : List Byte) (e : Encoder), 1 ≤ bs.length →
    (e.sink.sinkAnswer = .normal → sinkWrite bs e = (.ok (), ⟨e.out ++ bs, e.sink.answered⟩)) ∧
    (∀ err k, e.sink.sinkAnswer = .fail err k →
      sinkWrite bs e = (.error (.ioFailure err),
        ⟨e.out ++ bs.take (if k ≤ bs.length then k else bs.length), e.sink.answered⟩))

/-- R47: an encode that reaches the sink calls it exactly once, with its whole wire image, of which the sink keeps all or,
on failure, the first bytes; one that does not reach it leaves the Encoder as it was. -/
def Obligations.OneWritePerEncode : Prop :=
  ∀ (i : Instr) (s : State) (e : Encoder), i.wellFormed = true → i.direction = .enc →
    s.addressed = some (.encoder e) →
    ∃ t e', exec i s = .next t ∧ t.addressed = some (.encoder e') ∧
      (∀ wire, wireImage i = some wire → e'.sink = e.sink.answered ∧
        e'.out = e.out ++ wire.take (acceptedBytes wire.length e.sink.sinkAnswer)) ∧
      (wireImage i = none → e' = e)

/-! ## Fixed-width operations -/

/-- R102: `enc.bool` writes 01 or 00 in one write, or fails with the sink. -/
def Obligations.EncBoolWritesOneByte : Prop :=
  ∀ v : Bool, encode (.encBool v) = ⟨0x00, .bool v⟩ ∧
    Writes (.encBool v) [if v then 0x01 else 0x00] ∧ WriteFails (.encBool v) [if v then 0x01 else 0x00]

/-- R104, R106, R108: the 16-bit encodes write the two bytes of their bit pattern, high byte first. -/
def Obligations.EncodesOf16Bits : Prop :=
  (∀ v : Word16,
    encode (.encU16 v) = ⟨0x01, .word16 v⟩ ∧ Writes (.encU16 v) (bytes16 v) ∧ WriteFails (.encU16 v) (bytes16 v) ∧
    encode (.encChar v) = ⟨0x03, .word16 v⟩ ∧ Writes (.encChar v) (bytes16 v) ∧ WriteFails (.encChar v) (bytes16 v)) ∧
  (∀ v : Int, -32768 ≤ v → v ≤ 32767 →
    encode (.encS16 v) = ⟨0x02, .word16 (BitVec.ofInt 16 v)⟩ ∧
    Writes (.encS16 v) (bytes16 (BitVec.ofInt 16 v)) ∧ WriteFails (.encS16 v) (bytes16 (BitVec.ofInt 16 v)))

/-- R110, R112, R118: the 32-bit encodes write the four bytes of their bit pattern, high byte first. -/
def Obligations.EncodesOf32Bits : Prop :=
  (∀ v : Word32,
    encode (.encU32 v) = ⟨0x04, .word32 v⟩ ∧ Writes (.encU32 v) (bytes32 v) ∧ WriteFails (.encU32 v) (bytes32 v) ∧
    encode (.encF32 v) = ⟨0x08, .word32 v⟩ ∧ Writes (.encF32 v) (bytes32 v) ∧ WriteFails (.encF32 v) (bytes32 v)) ∧
  (∀ v : Int, -2147483648 ≤ v → v ≤ 2147483647 →
    encode (.encS32 v) = ⟨0x05, .word32 (BitVec.ofInt 32 v)⟩ ∧
    Writes (.encS32 v) (bytes32 (BitVec.ofInt 32 v)) ∧ WriteFails (.encS32 v) (bytes32 (BitVec.ofInt 32 v)))

/-- R114, R116, R120: the 64-bit encodes write the eight bytes of their bit pattern, high byte first. -/
def Obligations.EncodesOf64Bits : Prop :=
  (∀ v : Word64,
    encode (.encU64 v) = ⟨0x06, .word64 v⟩ ∧ Writes (.encU64 v) (bytes64 v) ∧ WriteFails (.encU64 v) (bytes64 v) ∧
    encode (.encF64 v) = ⟨0x09, .word64 v⟩ ∧ Writes (.encF64 v) (bytes64 v) ∧ WriteFails (.encF64 v) (bytes64 v)) ∧
  (∀ v : Int, -9223372036854775808 ≤ v → v ≤ 9223372036854775807 →
    encode (.encS64 v) = ⟨0x07, .word64 (BitVec.ofInt 64 v)⟩ ∧
    Writes (.encS64 v) (bytes64 (BitVec.ofInt 64 v)) ∧ WriteFails (.encS64 v) (bytes64 (BitVec.ofInt 64 v)))

/-- R103: `dec.bool` takes one byte and gives true exactly when it is nonzero; it can end short or fail. -/
def Obligations.DecBoolReadsOneByte : Prop :=
  decode ⟨0x80, .none⟩ = .ok .decBool ∧
  (∀ b : Byte, Reads .decBool [b] (.bool (decide (b.toNat ≠ 0)))) ∧
  ReadsShort .decBool 1 ∧ ReadFails .decBool 1

/-- R105, R107, R109: the 16-bit decodes take two bytes, high byte first, as a word or as its two's-complement integer. -/
def Obligations.DecodesOf16Bits : Prop :=
  (decode ⟨0x81, .none⟩ = .ok .decU16 ∧ decode ⟨0x82, .none⟩ = .ok .decS16 ∧ decode ⟨0x83, .none⟩ = .ok .decChar) ∧
  (∀ b₀ b₁ : Byte,
    Reads .decU16 [b₀, b₁] (.word16 (b₀ ++ b₁)) ∧
    Reads .decS16 [b₀, b₁] (.int (BitVec.toInt (b₀ ++ b₁))) ∧
    Reads .decChar [b₀, b₁] (.word16 (b₀ ++ b₁))) ∧
  (ReadsShort .decU16 2 ∧ ReadsShort .decS16 2 ∧ ReadsShort .decChar 2) ∧
  (ReadFails .decU16 2 ∧ ReadFails .decS16 2 ∧ ReadFails .decChar 2)

/-- R111, R113, R119: the 32-bit decodes take four bytes, high byte first; a float stays its bit pattern. -/
def Obligations.DecodesOf32Bits : Prop :=
  (decode ⟨0x84, .none⟩ = .ok .decU32 ∧ decode ⟨0x85, .none⟩ = .ok .decS32 ∧ decode ⟨0x88, .none⟩ = .ok .decF32) ∧
  (∀ b₀ b₁ b₂ b₃ : Byte,
    Reads .decU32 [b₀, b₁, b₂, b₃] (.word32 (b₀ ++ b₁ ++ b₂ ++ b₃)) ∧
    Reads .decS32 [b₀, b₁, b₂, b₃] (.int (BitVec.toInt (b₀ ++ b₁ ++ b₂ ++ b₃))) ∧
    Reads .decF32 [b₀, b₁, b₂, b₃] (.word32 (b₀ ++ b₁ ++ b₂ ++ b₃))) ∧
  (ReadsShort .decU32 4 ∧ ReadsShort .decS32 4 ∧ ReadsShort .decF32 4) ∧
  (ReadFails .decU32 4 ∧ ReadFails .decS32 4 ∧ ReadFails .decF32 4)

/-- R115, R117, R121: the 64-bit decodes take eight bytes, high byte first; a double stays its bit pattern. -/
def Obligations.DecodesOf64Bits : Prop :=
  (decode ⟨0x86, .none⟩ = .ok .decU64 ∧ decode ⟨0x87, .none⟩ = .ok .decS64 ∧ decode ⟨0x89, .none⟩ = .ok .decF64) ∧
  (∀ b₀ b₁ b₂ b₃ b₄ b₅ b₆ b₇ : Byte,
    Reads .decU64 [b₀, b₁, b₂, b₃, b₄, b₅, b₆, b₇] (.word64 (b₀ ++ b₁ ++ b₂ ++ b₃ ++ b₄ ++ b₅ ++ b₆ ++ b₇)) ∧
    Reads .decS64 [b₀, b₁, b₂, b₃, b₄, b₅, b₆, b₇]
      (.int (BitVec.toInt (b₀ ++ b₁ ++ b₂ ++ b₃ ++ b₄ ++ b₅ ++ b₆ ++ b₇))) ∧
    Reads .decF64 [b₀, b₁, b₂, b₃, b₄, b₅, b₆, b₇] (.word64 (b₀ ++ b₁ ++ b₂ ++ b₃ ++ b₄ ++ b₅ ++ b₆ ++ b₇))) ∧
  (ReadsShort .decU64 8 ∧ ReadsShort .decS64 8 ∧ ReadsShort .decF64 8) ∧
  (ReadFails .decU64 8 ∧ ReadFails .decS64 8 ∧ ReadFails .decF64 8)

/-- Operations of one width do the same to their instance: a signed encode is the unsigned one of its bits, char is u16, a
float is the unsigned word of its pattern; a signed decode is the unsigned one reinterpreted. The spec marks R123 as its
own inference ("derived: from rule R100 and rule R101"). -/
def Obligations.SharedLayouts : Prop :=
  (∀ (s : State) (e : Encoder), s.addressed = some (.encoder e) →
    (∀ v : Int, -32768 ≤ v → v ≤ 32767 → exec (.encS16 v) s = exec (.encU16 (toBits 16 v)) s) ∧
    (∀ v : Int, -2147483648 ≤ v → v ≤ 2147483647 → exec (.encS32 v) s = exec (.encU32 (toBits 32 v)) s) ∧
    (∀ v : Int, -9223372036854775808 ≤ v → v ≤ 9223372036854775807 →
      exec (.encS64 v) s = exec (.encU64 (toBits 64 v)) s) ∧
    (∀ w, exec (.encChar w) s = exec (.encU16 w) s) ∧
    (∀ w, exec (.encF32 w) s = exec (.encU32 w) s) ∧ (∀ w, exec (.encF64 w) s = exec (.encU64 w) s)) ∧
  (∀ (s : State) (d : Decoder), s.addressed = some (.decoder d) →
    exec .decChar s = exec .decU16 s ∧ exec .decF32 s = exec .decU32 s ∧ exec .decF64 s = exec .decU64 s ∧
    (∀ x w, exec .decU16 s = .next (s.afterReply x (.ok (some (.word16 w)))) →
      exec .decS16 s = .next (s.afterReply x (.ok (some (.int (toSigned w)))))) ∧
    (∀ x w, exec .decU32 s = .next (s.afterReply x (.ok (some (.word32 w)))) →
      exec .decS32 s = .next (s.afterReply x (.ok (some (.int (toSigned w)))))) ∧
    (∀ x w, exec .decU64 s = .next (s.afterReply x (.ok (some (.word64 w)))) →
      exec .decS64 s = .next (s.afterReply x (.ok (some (.int (toSigned w)))))))

/-- What a fixed-width encode writes, the decode of the same type reads back as the same value. The spec marks R125 as its
own inference ("derived: from rule R9, rule R100 and rule R101"). -/
def Obligations.FixedWidthRoundTrip : Prop :=
  (∀ v, RoundTrips (.encBool v) .decBool (.bool v)) ∧
  (∀ w, RoundTrips (.encU16 w) .decU16 (.word16 w)) ∧
  (∀ w, RoundTrips (.encChar w) .decChar (.word16 w)) ∧
  (∀ w, RoundTrips (.encU32 w) .decU32 (.word32 w)) ∧
  (∀ w, RoundTrips (.encU64 w) .decU64 (.word64 w)) ∧
  (∀ w, RoundTrips (.encF32 w) .decF32 (.word32 w)) ∧
  (∀ w, RoundTrips (.encF64 w) .decF64 (.word64 w)) ∧
  (∀ v : Int, -32768 ≤ v → v ≤ 32767 → RoundTrips (.encS16 v) .decS16 (.int v)) ∧
  (∀ v : Int, -2147483648 ≤ v → v ≤ 2147483647 → RoundTrips (.encS32 v) .decS32 (.int v)) ∧
  (∀ v : Int, -9223372036854775808 ≤ v → v ≤ 9223372036854775807 → RoundTrips (.encS64 v) .decS64 (.int v))

/-- The stream keeps no field boundaries: two 16-bit fields are the bytes of the 32-bit field they make, whichever of them
wrote or reads them. The spec marks R49 as its own inference ("derived: from rule R48 and rule R41"). -/
def Obligations.MixedWidths : Prop :=
  ∀ hi lo : Word16,
    Writes (.encU16 hi) (bytes16 hi) ∧ Writes (.encU16 lo) (bytes16 lo) ∧
    Writes (.encU32 (hi ++ lo)) (bytes16 hi ++ bytes16 lo) ∧
    Reads .decU32 (bytes16 hi ++ bytes16 lo) (.word32 (hi ++ lo)) ∧
    Reads .decU16 (bytes16 hi) (.word16 hi) ∧ Reads .decU16 (bytes16 lo) (.word16 lo)

/-! ## Text -/

/-- R142 and R143: `enc.text` writes the two length bytes and the body in one write where `L ≤ 65535`; else it raises
LengthExceeded(L) without calling the sink, whatever the sink would answer. -/
def Obligations.EncTextWritesFrame : Prop :=
  ∀ t : Text, encode (.encText t) = ⟨0x0A, .text t⟩ ∧
    (textLength t ≤ 65535 →
      Writes (.encText t) (bytes16 (BitVec.ofNat 16 (textLength t)) ++ t.flatMap formByFields) ∧
      WriteFails (.encText t) (bytes16 (BitVec.ofNat 16 (textLength t)) ++ t.flatMap formByFields)) ∧
    (65535 < textLength t → ∀ (s : State) (e : Encoder), s.addressed = some (.encoder e) →
      exec (.encText t) s = .next (s.afterReply (.encoder e) (.error (.lengthExceeded (textLength t)))))

/-- R150: `dec.text` reads the length field, then the whole body, then scans it; each of its ends. `h` and `l` are the two
length bytes; an empty body makes no second call. -/
def Obligations.DecTextReadsFrame : Prop :=
  decode ⟨0x8A, .none⟩ = .ok .decText ∧ ReadsShort .decText 2 ∧ ReadFails .decText 2 ∧
  (∀ (s : State) (d : Decoder) (rest : List Byte), s.addressed = some (.decoder d) →
    d.source.srcAnswer = .normal → d.inp = 0x00 :: 0x00 :: rest →
    exec .decText s = .next (s.afterReply (.decoder ⟨d.inp0, rest, d.source.answered⟩) (.ok (some (.text []))))) ∧
  (∀ (s : State) (d : Decoder) (h l : Byte) (tail : List Byte), s.addressed = some (.decoder d) →
    d.source.srcAnswer = .normal → d.inp = h :: l :: tail → 0 < h.toNat * 256 + l.toNat →
    (∀ body rest, d.source.answered.srcAnswer = .normal → tail = body ++ rest →
      body.length = h.toNat * 256 + l.toNat →
      (∀ t, decodeBody body = .ok t → exec .decText s = .next
        (s.afterReply (.decoder ⟨d.inp0, rest, d.source.answered.answered⟩) (.ok (some (.text t))))) ∧
      (∀ err, decodeBody body = .error err → exec .decText s = .next
        (s.afterReply (.decoder ⟨d.inp0, rest, d.source.answered.answered⟩) (.error err)))) ∧
    (d.source.answered.srcAnswer = .normal → tail.length < h.toNat * 256 + l.toNat →
      exec .decText s = .next (s.afterReply (.decoder ⟨d.inp0, [], d.source.answered.answered⟩)
        (.error (.shortRead (h.toNat * 256 + l.toNat) tail.length)))) ∧
    (∀ err k, d.source.answered.srcAnswer = .fail err k →
      exec .decText s = .next (s.afterReply
        (.decoder ⟨d.inp0, tail.drop (min k (h.toNat * 256 + l.toNat)), d.source.answered.answered⟩)
        (.error (.ioFailure err)))))

/-- R144, with R149's order of checks: the model's scan of a body is the loop the rule writes. -/
def Obligations.BodyScanIsTheSpecLoop : Prop :=
  ∀ body : List Byte, decodeBody body = bodyLoop body (body.length + 1) 0 []

/-- R64, R65, R66: lead bytes fall into the table's ranges, a continuation byte is 0x80..0xBF, and the three forms
assemble their code unit from the table's bit fields. -/
def Obligations.LeadClassesAndAssembly : Prop :=
  (∀ b : Byte,
    (leadClass b = .one ↔ b.toNat ≤ 0x7F) ∧
    (leadClass b = .two ↔ 0xC0 ≤ b.toNat ∧ b.toNat ≤ 0xDF) ∧
    (leadClass b = .three ↔ 0xE0 ≤ b.toNat ∧ b.toNat ≤ 0xEF) ∧
    (leadClass b = .invalid ↔ (0x80 ≤ b.toNat ∧ b.toNat ≤ 0xBF) ∨ 0xF0 ≤ b.toNat) ∧
    (isContinuation b = true ↔ 0x80 ≤ b.toNat ∧ b.toNat ≤ 0xBF)) ∧
  (∀ b₀ b₁ b₂ : Byte,
    unit1 b₀ = 0#8 ++ b₀ ∧
    unit2 b₀ b₁ = 0#5 ++ b₀.extractLsb' 0 5 ++ b₁.extractLsb' 0 6 ∧
    unit3 b₀ b₁ b₂ = b₀.extractLsb' 0 4 ++ b₁.extractLsb' 0 6 ++ b₂.extractLsb' 0 6)

/-- R140 and R63: the form `EncUnit` writes is the one of R63's table, with its bit fields. -/
def Obligations.EncUnitForms : Prop :=
  ∀ c : Word16, encUnit c = formByFields c

/-- R141: a body is the concatenation of the units' forms in order, and its length is `L(t)`. -/
def Obligations.EncodeBodyConcatenates : Prop :=
  encodeBody [] = [] ∧ (∀ (c : Word16) (t : Text), encodeBody (c :: t) = encUnit c ++ encodeBody t) ∧
  (∀ t : Text, (encodeBody t).length = textLength t)

/-- After any well-encoded units, the first malformed form decides the error, which carries the index of that form's lead
byte in the body, whatever follows (from R144, R148, R149, R202; the offset and the order of checks are the spec's own
decisions D10 and D11, log entry 16). -/
def Obligations.FirstMalformedFormDecides : Prop :=
  ∀ (t : Text) (b₀ b₁ b₂ : Byte) (tail : List Byte),
    ((0x80 ≤ b₀.toNat ∧ b₀.toNat ≤ 0xBF) ∨ 0xF0 ≤ b₀.toNat →
      decodeBody (encodeBody t ++ b₀ :: tail) = .error (.malformedInput (encodeBody t).length .badLead)) ∧
    (0xC0 ≤ b₀.toNat ∧ b₀.toNat ≤ 0xDF →
      decodeBody (encodeBody t ++ [b₀]) = .error (.malformedInput (encodeBody t).length .truncated) ∧
      (¬ (0x80 ≤ b₁.toNat ∧ b₁.toNat ≤ 0xBF) →
        decodeBody (encodeBody t ++ b₀ :: b₁ :: tail) =
          .error (.malformedInput (encodeBody t).length .badContinuation))) ∧
    (0xE0 ≤ b₀.toNat ∧ b₀.toNat ≤ 0xEF →
      decodeBody (encodeBody t ++ [b₀]) = .error (.malformedInput (encodeBody t).length .truncated) ∧
      decodeBody (encodeBody t ++ [b₀, b₁]) = .error (.malformedInput (encodeBody t).length .truncated) ∧
      (¬ (0x80 ≤ b₁.toNat ∧ b₁.toNat ≤ 0xBF) ∨ ¬ (0x80 ≤ b₂.toNat ∧ b₂.toNat ≤ 0xBF) →
        decodeBody (encodeBody t ++ b₀ :: b₁ :: b₂ :: tail) =
          .error (.malformedInput (encodeBody t).length .badContinuation)))

/-- Every text decodes back from its body; and where `L(t) ≤ 65535` the frame `enc.text` appends is read back by `dec.text`
as the same text, whatever follows it. The spec marks R152's form over the model as its own inference ("derived: from rule
R140, rule R144 and rule R143"). -/
def Obligations.TextRoundTrip : Prop :=
  ∀ t : Text, decodeBody (encodeBody t) = .ok t ∧
    (textLength t ≤ 65535 → ∃ frame, Writes (.encText t) frame ∧
      ∀ (s : State) (d : Decoder) (rest : List Byte), s.addressed = some (.decoder d) →
        d.source.srcAnswer = .normal → d.source.answered.srcAnswer = .normal → d.inp = frame ++ rest →
        ∃ source, exec .decText s =
          .next (s.afterReply (.decoder ⟨d.inp0, rest, source⟩) (.ok (some (.text t)))))

/-- R151: a body decodes to at most one unit per byte, and to exactly that many only if every byte is below 0x80; and
`dec.text` returns at most 65535 units. -/
def Obligations.DecodedTextIsNoLonger : Prop :=
  (∀ (body : List Byte) (t : Text), decodeBody body = .ok t →
    t.length ≤ body.length ∧ (t.length = body.length ↔ ∀ b ∈ body, b.toNat ≤ 0x7F)) ∧
  (∀ (s s' : State) (n : Nat) (t : Text), exec .decText s = .next s' →
    s'.replies = s.replies ++ [⟨n, .ok (some (.text t))⟩] → t.length ≤ 65535)

/-- `m ≤ L(t) ≤ 3m`, so up to 21845 units never raise LengthExceeded and more than 65535 always do; between, the units
decide. The spec marks R155's bounds as its own inference ("derived: from rule R141"). -/
def Obligations.TextLengthBounds : Prop :=
  (∀ t : Text, t.length ≤ textLength t ∧ textLength t ≤ 3 * t.length) ∧
  (∀ (t : Text) (e : Encoder),
    (t.length ≤ 21845 → ∀ n, (textEncode t e).1 ≠ .error (.lengthExceeded n)) ∧
    (65535 < t.length → (textEncode t e).1 = .error (.lengthExceeded (textLength t)))) ∧
  textLength (List.replicate 65535 0x0041) = 65535 ∧ textLength (List.replicate 32768 0x0000) = 65536 ∧
  textLength (List.replicate 21846 0x0800) = 65538

/-- Forms the encoder never writes are accepted and decoded by their bit fields: the byte 00, overlong 2-byte forms, overlong
3-byte forms. The spec marks R74 as its own inference ("derived: from rule R64, rule R65 and rule R66"). -/
def Obligations.NonCanonicalFormsAreAccepted : Prop :=
  decodeBody [0x00] = .ok [0x0000] ∧
  (∀ b₀ b₁ : Byte, (b₀ = 0xC0 ∨ b₀ = 0xC1) → 0x80 ≤ b₁.toNat ∧ b₁.toNat ≤ 0xBF →
    ∃ c : Word16, decodeBody [b₀, b₁] = .ok [c] ∧ c.toNat ≤ 0x7F ∧
      c.toNat = (b₀.toNat - 0xC0) * 64 + (b₁.toNat - 0x80)) ∧
  (∀ b₁ b₂ : Byte, 0x80 ≤ b₁.toNat ∧ b₁.toNat ≤ 0x9F → 0x80 ≤ b₂.toNat ∧ b₂.toNat ≤ 0xBF →
    ∃ c : Word16, decodeBody [0xE0, b₁, b₂] = .ok [c] ∧ c.toNat ≤ 0x07FF ∧
      c.toNat = (b₁.toNat - 0x80) * 64 + (b₂.toNat - 0x80))

/-- A surrogate is a unit like any other: each takes a 3-byte form of its own, a pair takes two, and both come back as they
were, paired, unpaired or reversed (R154). The range 0xD800..0xDFFF is the spec's "from general knowledge, not in source"
(R13). -/
def Obligations.SurrogatesAreIndependentUnits : Prop :=
  ∀ c₁ c₂ : Word16, 0xD800 ≤ c₁.toNat ∧ c₁.toNat ≤ 0xDFFF → 0xD800 ≤ c₂.toNat ∧ c₂.toNat ≤ 0xDFFF →
    (encUnit c₁).length = 3 ∧ decodeBody (encUnit c₁) = .ok [c₁] ∧
    encodeBody [c₁, c₂] = encUnit c₁ ++ encUnit c₂ ∧ (encodeBody [c₁, c₂]).length = 6 ∧
    decodeBody (encodeBody [c₁, c₂]) = .ok [c₁, c₂]

/-! ## Errors, answers and frames -/

/-- From R200 and R29: the number of each status; which status and info each error reports, and a success; which operations
can raise which error; and of every response the machine gives, that it has an info exactly when its status is not OK, and
a result exactly when its status is OK and the operation is a decode. -/
def Obligations.ErrorsComeFromTheirOperations : Prop :=
  (Status.ok.code = 0 ∧ Status.shortRead.code = 1 ∧ Status.malformedInput.code = 2 ∧
    Status.lengthExceeded.code = 3 ∧ Status.ioFailure.code = 4 ∧ Status.illegalOperation.code = 5) ∧
  ((∀ r, (Response.ok r).status = .ok ∧ (Response.ok r).info = none ∧ (Response.ok r).result = r) ∧
    (∀ n a, (Response.error (.shortRead n a)).status = .shortRead) ∧
    (∀ o w, (Response.error (.malformedInput o w)).status = .malformedInput) ∧
    (∀ l, (Response.error (.lengthExceeded l)).status = .lengthExceeded) ∧
    (∀ e, (Response.error (.ioFailure e)).status = .ioFailure) ∧
    (∀ opcode, (Response.error (.illegalOperation opcode)).status = .illegalOperation) ∧
    (∀ err, (Response.error err).info = some err ∧ (Response.error err).result = none)) ∧
  (∀ (i : Instr) (s t : State) (n : Nat) (err : Err), exec i s = .next t →
    t.replies = s.replies ++ [⟨n, .error err⟩] → mayRaise i err) ∧
  (∀ (i : Instr) (s t : State) (n : Nat) (r : Response), exec i s = .next t →
    t.replies = s.replies ++ [⟨n, r⟩] →
      (r.info.isSome = true ↔ r.status ≠ .ok) ∧
      (r.result.isSome = true ↔ r.status = .ok ∧ i.direction = .dec))

/-- R208: what is left when an operation raises an error: a ShortRead leaves the source at its end, a MalformedInput has
consumed exactly the frame, LengthExceeded and IllegalOperation leave every instance as it was, an IOFailure has
dropped bytes from the front of the source or left the first bytes of the wire image in the sink; nothing else changes,
and the response has no result. -/
def Obligations.ErrorsArePrecise : Prop :=
  ∀ (i : Instr) (s t : State) (n : Nat) (err : Err), exec i s = .next t →
    t.replies = s.replies ++ [⟨n, .error err⟩] →
    (Response.error err).result = none ∧ t.host = s.host ∧ t.target = s.target ∧
    (∀ m, m ≠ s.target → t.instances[m]? = s.instances[m]?) ∧
    match err with
    | .shortRead _ _ => ∃ d source, t.addressed = some (.decoder ⟨d, [], source⟩)
    | .malformedInput _ _ => ∃ d h l body d', s.addressed = some (.decoder d) ∧ t.addressed = some (.decoder d') ∧
        d.inp = h :: l :: (body ++ d'.inp) ∧ body.length = h.toNat * 256 + l.toNat
    | .lengthExceeded _ => t.instances = s.instances
    | .illegalOperation _ => t.instances = s.instances
    | .ioFailure _ =>
      (∃ d d', s.addressed = some (.decoder d) ∧ t.addressed = some (.decoder d') ∧ d'.inp <:+ d.inp) ∨
      (∃ e e' wire, s.addressed = some (.encoder e) ∧ t.addressed = some (.encoder e') ∧ wireImage i = some wire ∧
        e'.out = e.out ++ wire.take (acceptedBytes wire.length e.sink.sinkAnswer))

/-- From R29 and R210: every well-formed instruction, on any attached instance and whatever the streams answer, ends with
exactly one response, and the instance is there for its next request. That a stream does answer is the model's premise
(R255, D16; log entry 14). -/
def Obligations.EveryInstructionIsAnswered : Prop :=
  ∀ (i : Instr) (s : State) (x : Instance), i.wellFormed = true → s.addressed = some x →
    ∃ t y r, exec i s = .next t ∧ t.replies = s.replies ++ [⟨s.target, r⟩] ∧ t.addressed = some y ∧ x.evolvesTo y

/-- From R257: a ShortRead leaves its Decoder's source at the end (the spec's own decision D6, log entry 13); in every state
where a Decoder is at its end, a decode on a serving source is a ShortRead with nothing available; and no step of any kind
gives such a Decoder bytes again. -/
def Obligations.ShortReadIsForGood : Prop :=
  (∀ (i : Instr) (s t : State) (n m a : Nat), exec i s = .next t →
    t.replies = s.replies ++ [⟨n, .error (.shortRead m a)⟩] →
    ∃ d, t.addressed = some (.decoder d) ∧ d.inp = []) ∧
  (∀ (j : Instr) (s : State) (d : Decoder), j.direction = .dec → s.addressed = some (.decoder d) → d.inp = [] →
    d.source.srcAnswer = .normal →
      exec j s = .next (s.afterReply (.decoder ⟨d.inp0, [], d.source.answered⟩)
        (.error (.shortRead ((fieldBytes j.wireType).getD 2) 0)))) ∧
  (∀ (s t : State) (n : Nat) (d : Decoder), step s = .next t → s.instances[n]? = some (.decoder d) → d.inp = [] →
    ∃ d', t.instances[n]? = some (.decoder d') ∧ d'.inp = [])

/-- R213: what an operation answers and does to its instance depends on that instance alone, in whatever company and under
whatever number it stands, and no other instance changes. -/
def Obligations.InstancesAreIndependent : Prop :=
  ∀ (i : Instr) (s u s' : State), s.addressed = u.addressed → exec i s = .next s' →
    (∀ n, n ≠ s.target → s'.instances[n]? = s.instances[n]?) ∧
    ∃ u' r, exec i u = .next u' ∧ u'.addressed = s'.addressed ∧
      s'.replies = s.replies ++ [⟨s.target, r⟩] ∧ u'.replies = u.replies ++ [⟨u.target, r⟩]

/-- What an encode may change: the response log by one entry of its own instance, and that instance, if an Encoder, by the
bytes of its wire image the sink accepted, at the end of `out`; a Decoder not at all. -/
def Obligations.EncodeFrame : Prop :=
  ∀ (i : Instr) (s t : State), i.direction = .enc → exec i s = .next t →
    t.host = s.host ∧ t.target = s.target ∧ t.instances.length = s.instances.length ∧
    (∃ r, t.replies = s.replies ++ [⟨s.target, r⟩]) ∧
    (∀ n, n ≠ s.target → t.instances[n]? = s.instances[n]?) ∧
    (∀ d, s.addressed = some (.decoder d) → t.addressed = some (.decoder d)) ∧
    (∀ e, s.addressed = some (.encoder e) →
      (wireImage i = none → t.addressed = some (.encoder e)) ∧
      (∀ wire, wireImage i = some wire → t.addressed = some (.encoder
        ⟨e.out ++ wire.take (acceptedBytes wire.length e.sink.sinkAnswer), e.sink.answered⟩)))

/-- What a decode may change: the response log by one entry of its own instance, and that instance, if a Decoder, by bytes
taken from the front of `inp` and calls its source answered; an Encoder not at all, so no byte of any sink. -/
def Obligations.DecodeFrame : Prop :=
  ∀ (i : Instr) (s t : State), i.direction = .dec → exec i s = .next t →
    t.host = s.host ∧ t.target = s.target ∧ t.instances.length = s.instances.length ∧
    (∃ r, t.replies = s.replies ++ [⟨s.target, r⟩]) ∧
    (∀ n, n ≠ s.target → t.instances[n]? = s.instances[n]?) ∧
    (∀ e, s.addressed = some (.encoder e) → t.addressed = some (.encoder e)) ∧
    (∀ d, s.addressed = some (.decoder d) → ∃ inp source, t.addressed = some (.decoder ⟨d.inp0, inp, source⟩) ∧
      inp <:+ d.inp ∧ (source = d.source.answered ∨ (i = .decText ∧ source = d.source.answered.answered)))

/-! ## The whole machine -/

/-- The invariant `State.Inv` is kept by every step from every state, reachable or not. -/
def Obligations.StepKeepsInvariant : Prop :=
  ∀ s t : State, s.Inv → step s = .next t → t.Inv

/-- R22, R23, R250 over every step from every state: no instance goes away or changes its kind or its stream, an Encoder's
`out` only grows and a Decoder's `inp` only shrinks; and no response already given changes. -/
def Obligations.StreamsOnlyAdvance : Prop :=
  ∀ s t : State, step s = .next t →
    (∀ (n : Nat) (x : Instance), s.instances[n]? = some x → ∃ y, t.instances[n]? = some y ∧ x.evolvesTo y) ∧
    s.replies <+: t.replies

/-- From R214: a host that keeps its duties is never stopped: its action completes, a request with exactly one response of
the instance it was issued to. That a stream does answer is the model's premise (R255, D16; log entry 14). -/
def Obligations.LawfulHostIsNeverStopped : Prop :=
  ∀ (s : State) (a : HostAction) (rest : List HostAction), s.host = a :: rest → a.lawful s →
    ∃ t, step s = .next t ∧ t.host = rest ∧
      ∀ n r, a = .request n r → ∃ response, t.replies = s.replies ++ [⟨n, response⟩]

/-! ## The assembler -/

/-- R76 and R68: every decode mnemonic, alone on a line or with a comment after it, is the request of its opcode with no
operand. That a blank may stand before the comment is the model's choice (log entry 19). -/
def Obligations.DecodeMnemonicsAssemble : Prop :=
  ∀ p ∈ [("dec.bool", 0x80#8), ("dec.u16", 0x81#8), ("dec.s16", 0x82#8), ("dec.char", 0x83#8), ("dec.u32", 0x84#8),
      ("dec.s32", 0x85#8), ("dec.u64", 0x86#8), ("dec.s64", 0x87#8), ("dec.f32", 0x88#8), ("dec.f64", 0x89#8),
      ("dec.text", 0x8A#8)],
    assembleLine p.1.toList = .ok (some ⟨p.2, .none⟩) ∧
    ∀ comment : List Char, assembleLine (p.1.toList ++ " ;".toList ++ comment) = .ok (some ⟨p.2, .none⟩)

/-- R76: `enc.text` with a double-quoted string of printable ASCII, other than the quote and the backslash, is the request
of the text whose units are the characters. That a semicolon inside the quotes is a character, and starts no comment, is the
model's choice (log entry 19). -/
def Obligations.QuotedTextAssembles : Prop :=
  ∀ cs : List Char, (∀ c ∈ cs, 0x20 ≤ c.toNat ∧ c.toNat ≤ 0x7E ∧ c.toNat ≠ 0x22 ∧ c.toNat ≠ 0x5C) →
    assembleLine ("enc.text ".toList ++ Char.ofNat 0x22 :: (cs ++ [Char.ofNat 0x22])) =
      .ok (some ⟨0x0A, .text (cs.map fun c => BitVec.ofNat 16 c.toNat)⟩)

/-- R76: each of the nine encodes that take a hexadecimal literal makes of `0x` and one digit up to the field's width in
digits the request of the value the digits spell. That "at most the field's width" counts digits, of either case, is the
model's choice (log entry 19). -/
def Obligations.HexOperandsAssemble : Prop :=
  ∀ (cs : List Char) (ds : List Nat), spellsHex cs ds → 1 ≤ ds.length →
    (ds.length ≤ 4 →
      assembleLine ("enc.u16 0x".toList ++ cs) = .ok (some ⟨0x01, .word16 (BitVec.ofNat 16 (hexValue ds))⟩) ∧
      assembleLine ("enc.s16 0x".toList ++ cs) = .ok (some ⟨0x02, .word16 (BitVec.ofNat 16 (hexValue ds))⟩) ∧
      assembleLine ("enc.char 0x".toList ++ cs) = .ok (some ⟨0x03, .word16 (BitVec.ofNat 16 (hexValue ds))⟩)) ∧
    (ds.length ≤ 8 →
      assembleLine ("enc.u32 0x".toList ++ cs) = .ok (some ⟨0x04, .word32 (BitVec.ofNat 32 (hexValue ds))⟩) ∧
      assembleLine ("enc.s32 0x".toList ++ cs) = .ok (some ⟨0x05, .word32 (BitVec.ofNat 32 (hexValue ds))⟩) ∧
      assembleLine ("enc.f32 0x".toList ++ cs) = .ok (some ⟨0x08, .word32 (BitVec.ofNat 32 (hexValue ds))⟩)) ∧
    (ds.length ≤ 16 →
      assembleLine ("enc.u64 0x".toList ++ cs) = .ok (some ⟨0x06, .word64 (BitVec.ofNat 64 (hexValue ds))⟩) ∧
      assembleLine ("enc.s64 0x".toList ++ cs) = .ok (some ⟨0x07, .word64 (BitVec.ofNat 64 (hexValue ds))⟩) ∧
      assembleLine ("enc.f64 0x".toList ++ cs) = .ok (some ⟨0x09, .word64 (BitVec.ofNat 64 (hexValue ds))⟩))
end

