-- ==== Sys2Proof/Laws/Decode.lean ====
section
/-! SUPPORT. The opcode byte and the typed operand read back as they were written. -/

namespace Sys2Proof

/-- An operation's opcode byte names that operation. -/
@[simp] theorem decodeOpcode_opcodeOf (d : Direction) (t : WireType) :
    decodeOpcode (opcodeOf d t) = some (d, t) := by
  cases d <;> cases t <;> decide

/-- The D bit of an operation's opcode byte is its direction. -/
@[simp] theorem directionOf_opcodeOf (d : Direction) (t : WireType) : directionOf (opcodeOf d t) = d := by
  cases d <;> cases t <;> decide

/-- What an opcode byte names has the direction of its D bit. -/
theorem decodeOpcode_direction {b : Byte} {d : Direction} {t : WireType} (h : decodeOpcode b = some (d, t)) :
    directionOf b = d := by
  unfold decodeOpcode at h
  split at h
  · obtain ⟨_, _, h⟩ := Option.map_eq_some_iff.mp h
    cases h
    rfl
  · cases h

/-- What an encode's opcode and operand name is an encode of that type, whatever the operand. -/
theorem encodeInstr_some {t : WireType} {o : Operand} {i : Instr} (h : encodeInstr t o = some i) :
    i.direction = .enc ∧ i.wireType = t := by
  cases t <;> obtain ⟨_, _, rfl⟩ := Option.map_eq_some_iff.mp h <;> exact ⟨rfl, rfl⟩

/-- The instruction of an operation has its direction and its type. -/
theorem instrOf_some {d : Direction} {t : WireType} {o : Operand} {i : Instr} (h : instrOf d t o = some i) :
    i.direction = d ∧ i.wireType = t := by
  cases d with
  | enc => exact encodeInstr_some h
  | dec =>
    simp only [instrOf] at h
    split at h
    · cases h; cases t <;> exact ⟨rfl, rfl⟩
    · cases h

/-- If a request decodes, its opcode byte names the instruction's operation and its operand is of the type it takes. -/
theorem decode_ok {r : Request} {i : Instr} (h : decode r = .ok i) :
    decodeOpcode r.opcode = some (i.direction, i.wireType) ∧ instrOf i.direction i.wireType r.operand = some i := by
  unfold decode at h
  split at h
  · cases h
  · rename_i d t hop
    split at h
    · rename_i j hj
      cases h
      obtain ⟨hd, ht⟩ := instrOf_some hj
      exact ⟨by rw [hop, hd, ht], by rw [hd, ht, hj]⟩
    · cases h

/-- If a request is rejected, its opcode is reserved, or names an operation that does not take its operand. -/
theorem decode_error {r : Request} {err : DecodeError} (h : decode r = .error err) :
    (err = .reservedOpcode r.opcode ∧ decodeOpcode r.opcode = none) ∨
    (∃ d t, err = .operandMismatch r.opcode ∧ decodeOpcode r.opcode = some (d, t) ∧
      instrOf d t r.operand = none) := by
  unfold decode at h
  split at h
  · rename_i hop
    cases h
    exact .inl ⟨rfl, hop⟩
  · rename_i d t hop
    split at h
    · cases h
    · rename_i hj
      cases h
      exact .inr ⟨d, t, rfl, hop, hj⟩

end Sys2Proof
end

