-- ==== Sys2Proof/Laws/State.lean ====
section
/-! SUPPORT. What each update of the state leaves in each field, so that no proof unfolds a record update. -/

namespace Sys2Proof.Machine

/-! ## Streams -/

@[simp] theorem Stream.answered_id (st : Stream) : st.answered.id = st.id := rfl
@[simp] theorem Stream.answered_calls (st : Stream) : st.answered.calls = st.calls + 1 := rfl
@[simp] theorem Stream.answered_scheduled (st : Stream) : st.answered.scheduled = st.scheduled.tail := rfl
@[simp] theorem Stream.fresh_id (id : Nat) (sch : List StreamAnswer) : (Stream.fresh id sch).id = id := rfl
@[simp] theorem Stream.fresh_calls (id : Nat) (sch : List StreamAnswer) : (Stream.fresh id sch).calls = 0 := rfl
@[simp] theorem Stream.fresh_scheduled (id : Nat) (sch : List StreamAnswer) :
    (Stream.fresh id sch).scheduled = sch := rfl

/-- A scheduled answer is the one the source gives. -/
theorem Stream.srcAnswer_scheduled {st : Stream} {a : StreamAnswer} {rest : List StreamAnswer}
    (h : st.scheduled = a :: rest) : st.srcAnswer = a := by
  simp [Stream.srcAnswer, h]

/-- A scheduled answer is the one the sink gives. -/
theorem Stream.sinkAnswer_scheduled {st : Stream} {a : StreamAnswer} {rest : List StreamAnswer}
    (h : st.scheduled = a :: rest) : st.sinkAnswer = a := by
  simp [Stream.sinkAnswer, h]

/-! ## Ending an operation -/

@[simp] theorem State.respond_instances (s : State) (x : Instance) (r : Response) :
    (s.respond x r).instances = s.instances.set s.target x := rfl
@[simp] theorem State.respond_host (s : State) (x : Instance) (r : Response) : (s.respond x r).host = s.host := rfl
@[simp] theorem State.respond_target (s : State) (x : Instance) (r : Response) :
    (s.respond x r).target = s.target := rfl
@[simp] theorem State.respond_replies (s : State) (x : Instance) (r : Response) :
    (s.respond x r).replies = s.replies ++ [⟨s.target, r⟩] := rfl

@[simp] theorem State.afterReply_instances (s : State) (x : Instance) (r : Response) :
    (s.afterReply x r).instances = s.instances.set s.target x := rfl
@[simp] theorem State.afterReply_host (s : State) (x : Instance) (r : Response) :
    (s.afterReply x r).host = s.host := rfl
@[simp] theorem State.afterReply_target (s : State) (x : Instance) (r : Response) :
    (s.afterReply x r).target = s.target := rfl
@[simp] theorem State.afterReply_replies (s : State) (x : Instance) (r : Response) :
    (s.afterReply x r).replies = s.replies ++ [⟨s.target, r⟩] := rfl

/-- The update the meanings use is the one the claims name. -/
theorem State.respond_eq_afterReply (s : State) (x : Instance) (r : Response) :
    s.respond x r = s.afterReply x r := rfl

/-- Raising an error is responding with it. -/
theorem State.raise_eq_afterReply (s : State) (x : Instance) (e : Err) :
    s.raise x e = s.afterReply x (.error e) := rfl

@[simp] theorem State.finish_ok (s : State) (x : Instance) (r : Option Result) :
    s.finish x (.ok r) = s.afterReply x (.ok r) := rfl
@[simp] theorem State.finish_error (s : State) (x : Instance) (e : Err) :
    s.finish x (.error e) = s.afterReply x (.error e) := rfl

/-- Ending an operation is one response, whatever the outcome. -/
theorem State.finish_eq_afterReply (s : State) (x : Instance) (o : Except Err (Option Result)) :
    s.finish x o = s.afterReply x (match o with | .ok r => .ok r | .error e => .error e) := by
  cases o <;> rfl

/-- The addressed instance after a response is the one put there. -/
theorem State.afterReply_addressed {s : State} {x y : Instance} {r : Response} (h : s.addressed = some y) :
    (s.afterReply x r).addressed = some x := by
  have h' : s.instances[s.target]? = some y := h
  have hlt : s.target < s.instances.length := (List.getElem?_eq_some_iff.mp h').1
  simp [State.addressed, hlt]

/-- Every other instance is as it was. -/
theorem State.afterReply_other {s : State} {x : Instance} {r : Response} {n : Nat} (h : n ≠ s.target) :
    (s.afterReply x r).instances[n]? = s.instances[n]? := by
  simp [Ne.symm h]

/-- Putting the addressed instance back as it is changes no instance. -/
theorem State.set_addressed {s : State} {x : Instance} (h : s.addressed = some x) :
    s.instances.set s.target x = s.instances := by
  have h' : s.instances[s.target]? = some x := h
  obtain ⟨hlt, hx⟩ := List.getElem?_eq_some_iff.mp h'
  rw [← hx, List.set_getElem_self]

/-! ## Attaching -/

@[simp] theorem State.attachEncoder_instances (s : State) (sch : List StreamAnswer) :
    (s.attachEncoder sch).instances =
      s.instances ++ [.encoder ⟨[], Stream.fresh s.instances.length sch⟩] := rfl
@[simp] theorem State.attachEncoder_host (s : State) (sch : List StreamAnswer) :
    (s.attachEncoder sch).host = s.host := rfl
@[simp] theorem State.attachEncoder_target (s : State) (sch : List StreamAnswer) :
    (s.attachEncoder sch).target = s.target := rfl
@[simp] theorem State.attachEncoder_replies (s : State) (sch : List StreamAnswer) :
    (s.attachEncoder sch).replies = s.replies := rfl
@[simp] theorem State.attachDecoder_instances (s : State) (inp0 : List Byte) (sch : List StreamAnswer) :
    (s.attachDecoder inp0 sch).instances =
      s.instances ++ [.decoder ⟨inp0, inp0, Stream.fresh s.instances.length sch⟩] := rfl
@[simp] theorem State.attachDecoder_host (s : State) (inp0 : List Byte) (sch : List StreamAnswer) :
    (s.attachDecoder inp0 sch).host = s.host := rfl
@[simp] theorem State.attachDecoder_target (s : State) (inp0 : List Byte) (sch : List StreamAnswer) :
    (s.attachDecoder inp0 sch).target = s.target := rfl
@[simp] theorem State.attachDecoder_replies (s : State) (inp0 : List Byte) (sch : List StreamAnswer) :
    (s.attachDecoder inp0 sch).replies = s.replies := rfl

end Sys2Proof.Machine
end

