-- ==== Sys2Proof/Laws/Ops.lean ====
section
/-! SUPPORT. One lemma for each thing a shared operation can do; later proofs cite these and do not unfold it. -/

namespace Sys2Proof.Machine

/-! ## Bytes -/

@[simp] theorem beBytes_zero {m : Nat} (w : BitVec m) : beBytes 0 w = [] := rfl
@[simp] theorem beBytes_succ {m n : Nat} (w : BitVec m) :
    beBytes (n + 1) w = w.extractLsb' (8 * n) 8 :: beBytes n w := rfl
@[simp] theorem fromBE_nil : fromBE [] = 0 := rfl
@[simp] theorem fromBE_cons (b : Byte) (bs : List Byte) :
    fromBE (b :: bs) = b.toNat * 2 ^ (8 * bs.length) + fromBE bs := rfl

/-- A list of `n` bytes stands for a number below `2^(8n)`. -/
theorem fromBE_lt (bs : List Byte) : fromBE bs < 2 ^ (8 * bs.length) := by
  induction bs with
  | nil => simp
  | cons b bs ih =>
    have hb : b.toNat + 1 ≤ 2 ^ 8 := b.isLt
    calc fromBE (b :: bs) < b.toNat * 2 ^ (8 * bs.length) + 2 ^ (8 * bs.length) := by simpa using ih
      _ = (b.toNat + 1) * 2 ^ (8 * bs.length) := by ring
      _ ≤ 2 ^ 8 * 2 ^ (8 * bs.length) := Nat.mul_le_mul_right _ hb
      _ = 2 ^ (8 * (b :: bs).length) := by rw [← pow_add]; congr 1; simp; omega

/-! ## Stream primitives -/

@[simp] theorem srcRead_zero (d : Decoder) : srcRead 0 d = (.ok [], d) := rfl

/-- A serving source with enough bytes. -/
theorem srcRead_normal {n : Nat} {d : Decoder} (hn : n ≠ 0) (ha : d.source.srcAnswer = .normal)
    (hl : n ≤ d.inp.length) :
    srcRead n d = (.ok (d.inp.take n), ⟨d.inp0, d.inp.drop n, d.source.answered⟩) := by
  simp [srcRead, hn, ha, hl]

/-- A serving source that ends first. -/
theorem srcRead_short {n : Nat} {d : Decoder} (ha : d.source.srcAnswer = .normal) (hl : d.inp.length < n) :
    srcRead n d = (.error (.shortRead n d.inp.length), ⟨d.inp0, [], d.source.answered⟩) := by
  simp [srcRead, ha, Nat.not_le.mpr hl, show n ≠ 0 by omega]

/-- A failing source: the draw, cut to its range, is what it drops. -/
theorem srcRead_fail {n k : Nat} {d : Decoder} {e : IOErr} (hn : n ≠ 0) (ha : d.source.srcAnswer = .fail e k) :
    srcRead n d = (.error (.ioFailure e), ⟨d.inp0, d.inp.drop (min k n), d.source.answered⟩) := by
  have hd : d.inp.drop (min k (min n d.inp.length)) = d.inp.drop (min k n) := by
    rcases Nat.le_total d.inp.length (min k n) with h | h
    · rw [List.drop_of_length_le h, List.drop_of_length_le (by omega)]
    · congr 1; omega
  simp [srcRead, hn, ha, hd]

/-- Everything `SrcRead(n)` can do. -/
theorem srcRead_cases (n : Nat) (d : Decoder) :
    (n = 0 ∧ srcRead n d = (.ok [], d)) ∨
    (n ≠ 0 ∧ d.source.srcAnswer = .normal ∧ n ≤ d.inp.length ∧
      srcRead n d = (.ok (d.inp.take n), ⟨d.inp0, d.inp.drop n, d.source.answered⟩)) ∨
    (n ≠ 0 ∧ d.source.srcAnswer = .normal ∧ d.inp.length < n ∧
      srcRead n d = (.error (.shortRead n d.inp.length), ⟨d.inp0, [], d.source.answered⟩)) ∨
    (∃ e k, n ≠ 0 ∧ d.source.srcAnswer = .fail e k ∧
      srcRead n d = (.error (.ioFailure e), ⟨d.inp0, d.inp.drop (min k n), d.source.answered⟩)) := by
  rcases Nat.eq_zero_or_pos n with rfl | hn
  · exact .inl ⟨rfl, rfl⟩
  · rcases ha : d.source.srcAnswer with _ | ⟨e, k⟩
    · rcases Nat.lt_or_ge d.inp.length n with hl | hl
      · exact .inr (.inr (.inl ⟨by omega, rfl, hl, srcRead_short ha hl⟩))
      · exact .inr (.inl ⟨by omega, rfl, hl, srcRead_normal (by omega) ha hl⟩)
    · exact .inr (.inr (.inr ⟨e, k, by omega, rfl, srcRead_fail (by omega) ha⟩))

/-- A serving sink. -/
theorem sinkWrite_normal {bs : List Byte} {e : Encoder} (ha : e.sink.sinkAnswer = .normal) :
    sinkWrite bs e = (.ok (), ⟨e.out ++ bs, e.sink.answered⟩) := by
  simp [sinkWrite, ha]

/-- A failing sink: the draw, cut to its range, is what it keeps. -/
theorem sinkWrite_fail {bs : List Byte} {e : Encoder} {err : IOErr} {k : Nat}
    (ha : e.sink.sinkAnswer = .fail err k) :
    sinkWrite bs e = (.error (.ioFailure err), ⟨e.out ++ bs.take k, e.sink.answered⟩) := by
  have ht : bs.take (min k bs.length) = bs.take k := by
    rcases Nat.le_total k bs.length with h | h
    · rw [Nat.min_eq_left h]
    · rw [Nat.min_eq_right h, List.take_of_length_le h, List.take_of_length_le (le_refl _)]
  simp [sinkWrite, ha, ht]

/-- Everything `SinkWrite(bs)` can do. -/
theorem sinkWrite_cases (bs : List Byte) (e : Encoder) :
    (e.sink.sinkAnswer = .normal ∧ sinkWrite bs e = (.ok (), ⟨e.out ++ bs, e.sink.answered⟩)) ∨
    (∃ err k, e.sink.sinkAnswer = .fail err k ∧
      sinkWrite bs e = (.error (.ioFailure err), ⟨e.out ++ bs.take k, e.sink.answered⟩)) := by
  rcases ha : e.sink.sinkAnswer with _ | ⟨err, k⟩
  · exact .inl ⟨rfl, sinkWrite_normal ha⟩
  · exact .inr ⟨err, k, rfl, sinkWrite_fail ha⟩

/-- What is in the sink after `SinkWrite(bs)`, whatever it answered. -/
theorem sinkWrite_state (bs : List Byte) (e : Encoder) :
    (sinkWrite bs e).2 =
      ⟨e.out ++ bs.take (acceptedBytes bs.length e.sink.sinkAnswer), e.sink.answered⟩ := by
  rcases ha : e.sink.sinkAnswer with _ | ⟨err, k⟩
  · simp [sinkWrite, ha, acceptedBytes]
  · simp [sinkWrite, ha, acceptedBytes]

/-! ## Running an operation -/

/-- The response an outcome becomes. -/
def answerOf : Except Err (Option Result) → Response
  | .ok r => .ok r
  | .error e => .error e

theorem State.onEncoder_encoder {s : State} {e : Encoder} (h : s.addressed = some (.encoder e)) (opcode : Byte)
    (op : Encoder → Except Err Unit × Encoder) :
    s.onEncoder opcode op =
      .next (s.afterReply (.encoder (op e).2) (answerOf ((op e).1.map fun _ => none))) := by
  simp only [State.onEncoder, h]; cases (op e).1 <;> rfl

theorem State.onEncoder_decoder {s : State} {d : Decoder} (h : s.addressed = some (.decoder d)) (opcode : Byte)
    (op : Encoder → Except Err Unit × Encoder) :
    s.onEncoder opcode op = .next (s.afterReply (.decoder d) (.error (.illegalOperation opcode))) := by
  simp only [State.onEncoder, h]; rfl

theorem State.onEncoder_none {s : State} (h : s.addressed = none) (opcode : Byte)
    (op : Encoder → Except Err Unit × Encoder) : s.onEncoder opcode op = .fault .noInstance := by
  simp only [State.onEncoder, h]

theorem State.onDecoder_decoder {s : State} {d : Decoder} (h : s.addressed = some (.decoder d)) (opcode : Byte)
    (op : Decoder → Except Err Result × Decoder) :
    s.onDecoder opcode op = .next (s.afterReply (.decoder (op d).2) (answerOf ((op d).1.map some))) := by
  simp only [State.onDecoder, h]; cases (op d).1 <;> rfl

theorem State.onDecoder_encoder {s : State} {e : Encoder} (h : s.addressed = some (.encoder e)) (opcode : Byte)
    (op : Decoder → Except Err Result × Decoder) :
    s.onDecoder opcode op = .next (s.afterReply (.encoder e) (.error (.illegalOperation opcode))) := by
  simp only [State.onDecoder, h]; rfl

theorem State.onDecoder_none {s : State} (h : s.addressed = none) (opcode : Byte)
    (op : Decoder → Except Err Result × Decoder) : s.onDecoder opcode op = .fault .noInstance := by
  simp only [State.onDecoder, h]

/-- If an encode answers a next state, one of two things happened. -/
theorem State.onEncoder_next {s t : State} {opcode : Byte} {op : Encoder → Except Err Unit × Encoder}
    (h : s.onEncoder opcode op = .next t) :
    (∃ e, s.addressed = some (.encoder e) ∧
      t = s.afterReply (.encoder (op e).2) (answerOf ((op e).1.map fun _ => none))) ∨
    (∃ d, s.addressed = some (.decoder d) ∧
      t = s.afterReply (.decoder d) (.error (.illegalOperation opcode))) := by
  match ha : s.addressed with
  | none => rw [State.onEncoder_none ha] at h; cases h
  | some (.encoder e) => rw [State.onEncoder_encoder ha] at h; cases h; exact .inl ⟨e, rfl, rfl⟩
  | some (.decoder d) => rw [State.onEncoder_decoder ha] at h; cases h; exact .inr ⟨d, rfl, rfl⟩

/-- If a decode answers a next state, one of two things happened. -/
theorem State.onDecoder_next {s t : State} {opcode : Byte} {op : Decoder → Except Err Result × Decoder}
    (h : s.onDecoder opcode op = .next t) :
    (∃ d, s.addressed = some (.decoder d) ∧
      t = s.afterReply (.decoder (op d).2) (answerOf ((op d).1.map some))) ∨
    (∃ e, s.addressed = some (.encoder e) ∧
      t = s.afterReply (.encoder e) (.error (.illegalOperation opcode))) := by
  match ha : s.addressed with
  | none => rw [State.onDecoder_none ha] at h; cases h
  | some (.decoder d) => rw [State.onDecoder_decoder ha] at h; cases h; exact .inl ⟨d, rfl, rfl⟩
  | some (.encoder e) => rw [State.onDecoder_encoder ha] at h; cases h; exact .inr ⟨e, rfl, rfl⟩

/-- A signed encode of a value in range is the encode of its bits. -/
theorem signedEncode_inRange {m : Nat} {v : Int} (h : inSignedRange m v = true) (n : Nat) (opcode : Byte) (s : State) :
    signedEncode m n opcode v s = s.onEncoder opcode (fixedEncode n (toBits m v)) := by
  simp [signedEncode, h]

/-- A signed encode of a value out of range has no meaning. -/
theorem signedEncode_outOfRange {m : Nat} {v : Int} (h : inSignedRange m v = false) (n : Nat) (opcode : Byte)
    (s : State) : signedEncode m n opcode v s = .refused .operandOutOfRange := by
  simp [signedEncode, h]

/-! ## What an instruction runs -/

/-- The stream work of an encode; a decode has none. -/
def encodeWork : Instr → Encoder → Except Err Unit × Encoder
  | .encBool v => fixedEncode 1 (boolByte v)
  | .encU16 v | .encChar v => fixedEncode 2 v
  | .encS16 v => fixedEncode 2 (toBits 16 v)
  | .encU32 v | .encF32 v => fixedEncode 4 v
  | .encS32 v => fixedEncode 4 (toBits 32 v)
  | .encU64 v | .encF64 v => fixedEncode 8 v
  | .encS64 v => fixedEncode 8 (toBits 64 v)
  | .encText t => textEncode t
  | .decBool | .decU16 | .decS16 | .decChar | .decU32 | .decS32 | .decU64 | .decS64 | .decF32 | .decF64
  | .decText => fun e => (.ok (), e)

/-- The stream work of a decode; an encode has none. -/
def decodeWork : Instr → Decoder → Except Err Result × Decoder
  | .decBool => fixedDecode 8 1 fun b => .bool (byteBool b)
  | .decU16 | .decChar => fixedDecode 16 2 .word16
  | .decS16 => fixedDecode 16 2 fun w => .int (toSigned w)
  | .decU32 | .decF32 => fixedDecode 32 4 .word32
  | .decS32 => fixedDecode 32 4 fun w => .int (toSigned w)
  | .decU64 | .decF64 => fixedDecode 64 8 .word64
  | .decS64 => fixedDecode 64 8 fun w => .int (toSigned w)
  | .decText => textDecode
  | .encBool _ | .encU16 _ | .encS16 _ | .encChar _ | .encU32 _ | .encS32 _ | .encU64 _ | .encS64 _
  | .encF32 _ | .encF64 _ | .encText _ => fun d => (.ok (.bool false), d)

/-- Every well-formed encode is its stream work, run on the addressed Encoder. -/
theorem exec_encode {i : Instr} (hd : i.direction = .enc) (hw : i.wellFormed = true) (s : State) :
    exec i s = s.onEncoder i.opcode (encodeWork i) := by
  cases i <;> first | rfl | exact signedEncode_inRange hw _ _ s | cases hd

/-- Every decode is its stream work, run on the addressed Decoder. -/
theorem exec_decode {i : Instr} (hd : i.direction = .dec) (s : State) :
    exec i s = s.onDecoder i.opcode (decodeWork i) := by
  cases i <;> first | rfl | cases hd

/-- An encode that answers a next state was well formed. -/
theorem exec_next_wellFormed {i : Instr} {s t : State} (h : exec i s = .next t) : i.wellFormed = true := by
  cases i with
  | encS16 v =>
    by_contra hv
    rw [show exec (.encS16 v) s = _ from signedEncode_outOfRange (by simpa [Instr.wellFormed] using hv) 2 0x02 s] at h
    cases h
  | encS32 v =>
    by_contra hv
    rw [show exec (.encS32 v) s = _ from signedEncode_outOfRange (by simpa [Instr.wellFormed] using hv) 4 0x05 s] at h
    cases h
  | encS64 v =>
    by_contra hv
    rw [show exec (.encS64 v) s = _ from signedEncode_outOfRange (by simpa [Instr.wellFormed] using hv) 8 0x07 s] at h
    cases h
  | _ => rfl

/-- An encode's stream work is one sink write of its wire image, or none at all. -/
theorem encodeWork_eq {i : Instr} (hd : i.direction = .enc) (e : Encoder) :
    (∃ wire, wireImage i = some wire ∧ encodeWork i e = sinkWrite wire e) ∨
    (∃ t, i = .encText t ∧ wireImage i = none ∧ 65535 < (encodeBody t).length ∧
      encodeWork i e = (.error (.lengthExceeded (encodeBody t).length), e)) := by
  cases i with
  | encText t =>
    by_cases h : 65535 < (encodeBody t).length
    · exact .inr ⟨t, rfl, by simp [wireImage, h], h, by simp [encodeWork, textEncode, Config.maxTextBytes, h]⟩
    · exact .inl ⟨textFrame t, by simp [wireImage, h], by simp [encodeWork, textEncode, Config.maxTextBytes, h]⟩
  | encBool v => exact .inl ⟨_, rfl, by cases v <;> rfl⟩
  | encU16 _ | encS16 _ | encChar _ | encU32 _ | encS32 _ | encU64 _ | encS64 _ | encF32 _ | encF64 _ =>
    exact .inl ⟨_, rfl, rfl⟩
  | decBool | decU16 | decS16 | decChar | decU32 | decS32 | decU64 | decS64 | decF32 | decF64 | decText => cases hd

end Sys2Proof.Machine
end

