-- ==== Sys2Proof/Laws/PerInstr.lean ====
section
/-! SUPPORT. Statements made for every instruction as it is written, one lemma per constructor. -/

namespace Sys2Proof.Laws.OperandFits

open Sys2Proof

/-- The operand a request for this instruction carries has the type its opcode takes (30_encoding.md R68): no encoded
instruction is refused for its operand, ill-formed ones included. -/
def Statement (i : Instr) : Prop :=
  (instrOf i.direction i.wireType i.operand).isSome = true

theorem encBool (v : Bool) : Statement (.encBool v) := rfl
theorem encU16 (v : Word16) : Statement (.encU16 v) := rfl
theorem encS16 (v : Int) : Statement (.encS16 v) := rfl
theorem encChar (c : Word16) : Statement (.encChar c) := rfl
theorem encU32 (v : Word32) : Statement (.encU32 v) := rfl
theorem encS32 (v : Int) : Statement (.encS32 v) := rfl
theorem encU64 (v : Word64) : Statement (.encU64 v) := rfl
theorem encS64 (v : Int) : Statement (.encS64 v) := rfl
theorem encF32 (w : Word32) : Statement (.encF32 w) := rfl
theorem encF64 (w : Word64) : Statement (.encF64 w) := rfl
theorem encText (t : Text) : Statement (.encText t) := rfl
theorem decBool : Statement .decBool := rfl
theorem decU16 : Statement .decU16 := rfl
theorem decS16 : Statement .decS16 := rfl
theorem decChar : Statement .decChar := rfl
theorem decU32 : Statement .decU32 := rfl
theorem decS32 : Statement .decS32 := rfl
theorem decU64 : Statement .decU64 := rfl
theorem decS64 : Statement .decS64 := rfl
theorem decF32 : Statement .decF32 := rfl
theorem decF64 : Statement .decF64 := rfl
theorem decText : Statement .decText := rfl

end Sys2Proof.Laws.OperandFits
end

