-- ==== Sys2Proof/Laws/Text.lean ====
section
/-! SUPPORT. One lemma for each thing the text functions can do (41_text.md); later proofs cite these. -/

namespace Sys2Proof.Machine

/-! ## The scan of a body -/

@[simp] theorem encodeBody_nil : encodeBody [] = [] := rfl
@[simp] theorem encodeBody_cons (c : Word16) (t : Text) : encodeBody (c :: t) = encUnit c ++ encodeBody t := rfl
@[simp] theorem consUnit_ok (u : Word16) (t : Text) : consUnit u (.ok t) = .ok (u :: t) := rfl
@[simp] theorem consUnit_error (u : Word16) (e : Err) : consUnit u (.error e) = .error e := rfl

/-- A unit in front of a scan that succeeds came from a scan that succeeds. -/
theorem consUnit_eq_ok {u : Word16} {r : Except Err Text} {t : Text} (h : consUnit u r = .ok t) :
    ∃ t', r = .ok t' ∧ t = u :: t' := by
  cases r with
  | error e => cases h
  | ok t' => cases h; exact ⟨t', rfl, rfl⟩

@[simp] theorem decodeBodyFrom_nil (i : Nat) : decodeBodyFrom i [] = .ok [] := rfl

/-- A 1-byte form (R145). -/
theorem decodeBodyFrom_one {b0 : Byte} (h : leadClass b0 = .one) (i : Nat) (rest : List Byte) :
    decodeBodyFrom i (b0 :: rest) = consUnit (unit1 b0) (decodeBodyFrom (i + 1) rest) := by
  rw [decodeBodyFrom.eq_def]; simp only [h]

/-- A whole 2-byte form (R146). -/
theorem decodeBodyFrom_two {b0 : Byte} (h : leadClass b0 = .two) (i : Nat) (b1 : Byte) (rest : List Byte) :
    decodeBodyFrom i (b0 :: b1 :: rest) =
      if isContinuation b1 then consUnit (unit2 b0 b1) (decodeBodyFrom (i + 2) rest)
      else .error (.malformedInput i .badContinuation) := by
  rw [decodeBodyFrom.eq_def]; simp only [h]

/-- A 2-byte form cut off by the body's end (R149). -/
theorem decodeBodyFrom_two_cut {b0 : Byte} (h : leadClass b0 = .two) (i : Nat) :
    decodeBodyFrom i [b0] = .error (.malformedInput i .truncated) := by
  rw [decodeBodyFrom.eq_def]; simp only [h]

/-- A whole 3-byte form (R147). -/
theorem decodeBodyFrom_three {b0 : Byte} (h : leadClass b0 = .three) (i : Nat) (b1 b2 : Byte) (rest : List Byte) :
    decodeBodyFrom i (b0 :: b1 :: b2 :: rest) =
      if isContinuation b1 && isContinuation b2 then consUnit (unit3 b0 b1 b2) (decodeBodyFrom (i + 3) rest)
      else .error (.malformedInput i .badContinuation) := by
  rw [decodeBodyFrom.eq_def]; simp only [h]

/-- A 3-byte form cut off by the body's end (R149). -/
theorem decodeBodyFrom_three_cut {b0 : Byte} (h : leadClass b0 = .three) (i : Nat) {rest : List Byte}
    (hr : rest.length < 2) : decodeBodyFrom i (b0 :: rest) = .error (.malformedInput i .truncated) := by
  rw [decodeBodyFrom.eq_def]
  match rest, hr with
  | [], _ => simp only [h]
  | [_], _ => simp only [h]

/-- An invalid lead (R148). -/
theorem decodeBodyFrom_invalid {b0 : Byte} (h : leadClass b0 = .invalid) (i : Nat) (rest : List Byte) :
    decodeBodyFrom i (b0 :: rest) = .error (.malformedInput i .badLead) := by
  rw [decodeBodyFrom.eq_def]; simp only [h]

/-! ## The two operations -/

/-- A text over the bound never reaches the sink (R143). -/
theorem textEncode_tooLong {t : Text} (h : 65535 < (encodeBody t).length) (e : Encoder) :
    textEncode t e = (.error (.lengthExceeded (encodeBody t).length), e) :=
  if_pos h

/-- A text within the bound is one write of its frame (R142). -/
theorem textEncode_fits {t : Text} (h : ¬ 65535 < (encodeBody t).length) (e : Encoder) :
    textEncode t e = sinkWrite (textFrame t) e :=
  if_neg h

/-- `dec.text` ends with the first read's error (R150). -/
theorem textDecode_lengthError {d d1 : Decoder} {err : Err} (h : srcRead 2 d = (.error err, d1)) :
    textDecode d = (.error err, d1) := by
  simp only [textDecode, Config.lengthBytes, h]

/-- `dec.text` ends with the second read's error (R150). -/
theorem textDecode_bodyError {d d1 d2 : Decoder} {p : List Byte} {err : Err} (h1 : srcRead 2 d = (.ok p, d1))
    (h2 : srcRead (fromBE p) d1 = (.error err, d2)) : textDecode d = (.error err, d2) := by
  simp only [textDecode, Config.lengthBytes, h1, h2]

/-- `dec.text` scans a body that was read whole (R150). -/
theorem textDecode_body {d d1 d2 : Decoder} {p body : List Byte} (h1 : srcRead 2 d = (.ok p, d1))
    (h2 : srcRead (fromBE p) d1 = (.ok body, d2)) : textDecode d = ((decodeBody body).map Result.text, d2) := by
  simp only [textDecode, Config.lengthBytes, h1, h2]

end Sys2Proof.Machine
end

