-- ==== Sys2Proof/Tests/Slice0.lean ====
section
/-! SUPPORT. The model's own tests. Expected results are written out from spec/95_test_vectors.md and from the tables of
spec/30_encoding.md. The witnesses at the end show, for every statement with hypotheses, a state and operands that meet
them. -/

namespace Sys2Proof.Tests

open Sys2Proof Sys2Proof.Machine

/-! ## Small states and what is read off them -/

/-- One Encoder with the given bytes out, whose sink's next answers are fixed. -/
def encoderState (out : List Byte) (answers : List StreamAnswer) : State :=
  ⟨[.encoder ⟨out, ⟨0, 0, answers⟩⟩], [], 0, []⟩

/-- One Decoder with the given bytes to come, whose source's next answers are fixed. -/
def decoderState (inp : List Byte) (answers : List StreamAnswer) : State :=
  ⟨[.decoder ⟨inp, inp, ⟨0, 0, answers⟩⟩], [], 0, []⟩

/-- The state with the host about to do one thing. -/
def asked (s : State) (a : HostAction) : State :=
  { s with host := [a] }

/-- The last response and the bytes of instance 0 (an Encoder's `out`, a Decoder's `inp`) after a run. -/
def result : Host.Outcome State Fault Refusal → Option (Response × List Byte)
  | .next s =>
    match s.replies.getLast?, s.instances.head? with
    | some p, some (.encoder e) => some (p.response, e.out)
    | some p, some (.decoder d) => some (p.response, d.inp)
    | _, _ => none
  | .fault _ | .refused _ => none

/-- The refusal a step ends in. -/
def refusal : Host.Outcome State Fault Refusal → Option Refusal
  | .refused r => some r
  | .next _ | .fault _ => none

/-- The step went on. -/
def goesOn : Host.Outcome State Fault Refusal → Bool
  | .next _ => true
  | .fault _ | .refused _ => false

/-- An error of the stream's own. -/
def ioErr : IOErr := ⟨0, .inl rfl⟩

/-! ## Well-formedness: one ill-formed term for each check (R68) -/

theorem test_illFormed_s16 : Instr.wellFormed (.encS16 32768) = false := by decide
theorem test_illFormed_s16_low : Instr.wellFormed (.encS16 (-32769)) = false := by decide
theorem test_illFormed_s32 : Instr.wellFormed (.encS32 2147483648) = false := by decide
theorem test_illFormed_s64 : Instr.wellFormed (.encS64 (-9223372036854775809)) = false := by decide

/-! ## Decoding: for every constructor, its opcode written out bit by bit, D 000 TTTT (R67, R68) -/

theorem test_decode_encBool : decode ⟨0b00000000, .bool true⟩ = .ok (.encBool true) := by decide
theorem test_decode_encU16 : decode ⟨0b00000001, .word16 0xBEEF⟩ = .ok (.encU16 0xBEEF) := by decide
theorem test_decode_encS16 : decode ⟨0b00000010, .word16 0x8000⟩ = .ok (.encS16 (-32768)) := by decide
theorem test_decode_encChar : decode ⟨0b00000011, .word16 0x20AC⟩ = .ok (.encChar 0x20AC) := by decide
theorem test_decode_encU32 : decode ⟨0b00000100, .word32 0xDEADBEEF⟩ = .ok (.encU32 0xDEADBEEF) := by decide
theorem test_decode_encS32 : decode ⟨0b00000101, .word32 0xDEADBEEF⟩ = .ok (.encS32 (-559038737)) := by decide
theorem test_decode_encU64 : decode ⟨0b00000110, .word64 0x0102030405060708⟩ =
    .ok (.encU64 0x0102030405060708) := by decide
theorem test_decode_encS64 : decode ⟨0b00000111, .word64 0xFFFFFFFFFFFFFFFE⟩ = .ok (.encS64 (-2)) := by decide
theorem test_decode_encF32 : decode ⟨0b00001000, .word32 0x7FC00000⟩ = .ok (.encF32 0x7FC00000) := by decide
theorem test_decode_encF64 : decode ⟨0b00001001, .word64 0x3FF0000000000000⟩ =
    .ok (.encF64 0x3FF0000000000000) := by decide
theorem test_decode_encText : decode ⟨0b00001010, .text [0xD83D, 0xDE00]⟩ = .ok (.encText [0xD83D, 0xDE00]) := by
  decide
theorem test_decode_decBool : decode ⟨0b10000000, .none⟩ = .ok .decBool := by decide
theorem test_decode_decU16 : decode ⟨0b10000001, .none⟩ = .ok .decU16 := by decide
theorem test_decode_decS16 : decode ⟨0b10000010, .none⟩ = .ok .decS16 := by decide
theorem test_decode_decChar : decode ⟨0b10000011, .none⟩ = .ok .decChar := by decide
theorem test_decode_decU32 : decode ⟨0b10000100, .none⟩ = .ok .decU32 := by decide
theorem test_decode_decS32 : decode ⟨0b10000101, .none⟩ = .ok .decS32 := by decide
theorem test_decode_decU64 : decode ⟨0b10000110, .none⟩ = .ok .decU64 := by decide
theorem test_decode_decS64 : decode ⟨0b10000111, .none⟩ = .ok .decS64 := by decide
theorem test_decode_decF32 : decode ⟨0b10001000, .none⟩ = .ok .decF32 := by decide
theorem test_decode_decF64 : decode ⟨0b10001001, .none⟩ = .ok .decF64 := by decide
theorem test_decode_decText : decode ⟨0b10001010, .none⟩ = .ok .decText := by decide

/-- R70: just past the last type code, and a Z field that is not zero. -/
theorem test_decode_reserved :
    decode ⟨0b00001011, .none⟩ = .error (.reservedOpcode 0x0B) ∧
    decode ⟨0b11000001, .none⟩ = .error (.reservedOpcode 0xC1) := by decide

/-- The 22 opcode bytes of R68's table. -/
def tableOpcodes : List Nat :=
  [0x00, 0x01, 0x02, 0x03, 0x04, 0x05, 0x06, 0x07, 0x08, 0x09, 0x0A] ++
  [0x80, 0x81, 0x82, 0x83, 0x84, 0x85, 0x86, 0x87, 0x88, 0x89, 0x8A]

/-- Each row of the opcode table is an instruction, which the next step runs. -/
theorem test_tableRows_decode : tableOpcodes.all (fun w => (decodeTableWord 8 w).isSome) = true := by decide
theorem test_tableRows_run :
    tableOpcodes.all (fun w => goesOn (step (State.reset.withFetchWord 8 w))) = true := by decide
theorem test_tableRow_reserved : decodeTableWord 8 0x0B = none := by decide

/-! ## The fixed-width encodes (95_test_vectors.md 2.1) -/

/-- F-E1, F-E2. -/
theorem test_encBool_true : result (exec (.encBool true) (encoderState [] [.normal])) = some (.ok none, [0x01]) := by
  decide
theorem test_encBool_false : result (exec (.encBool false) (encoderState [] [.normal])) = some (.ok none, [0x00]) := by
  decide
/-- F-E5. -/
theorem test_encU16 : result (exec (.encU16 0xBEEF) (encoderState [0xAA] [.normal])) =
    some (.ok none, [0xAA, 0xBE, 0xEF]) := by decide
/-- F-E7, F-E9. -/
theorem test_encS16_least : result (exec (.encS16 (-32768)) (encoderState [] [.normal])) =
    some (.ok none, [0x80, 0x00]) := by decide
theorem test_encS16_minusTwo : result (exec (.encS16 (-2)) (encoderState [] [.normal])) =
    some (.ok none, [0xFF, 0xFE]) := by decide
/-- F-E10: the raw unit, not C0 80; F-E12. -/
theorem test_encChar_null : result (exec (.encChar 0x0000) (encoderState [] [.normal])) =
    some (.ok none, [0x00, 0x00]) := by decide
theorem test_encChar_euro : result (exec (.encChar 0x20AC) (encoderState [] [.normal])) =
    some (.ok none, [0x20, 0xAC]) := by decide
/-- F-E32, F-E34: the sink fails. -/
theorem test_encU32_failsAtTwo : result (exec (.encU32 0xDEADBEEF) (encoderState [0xAA] [.fail ioErr 2])) =
    some (.error (.ioFailure ioErr), [0xAA, 0xDE, 0xAD]) := by decide
theorem test_encU32_failsAtEnd : result (exec (.encU32 0xDEADBEEF) (encoderState [0xAA] [.fail ioErr 4])) =
    some (.error (.ioFailure ioErr), [0xAA, 0xDE, 0xAD, 0xBE, 0xEF]) := by decide
/-- F-E16, F-E18. -/
theorem test_encS32 : result (exec (.encS32 (-559038737)) (encoderState [] [.normal])) =
    some (.ok none, [0xDE, 0xAD, 0xBE, 0xEF]) := by decide
theorem test_encS32_greatest : result (exec (.encS32 2147483647) (encoderState [] [.normal])) =
    some (.ok none, [0x7F, 0xFF, 0xFF, 0xFF]) := by decide
/-- F-E20. -/
theorem test_encU64 : result (exec (.encU64 0x0102030405060708) (encoderState [] [.normal])) =
    some (.ok none, [0x01, 0x02, 0x03, 0x04, 0x05, 0x06, 0x07, 0x08]) := by decide
/-- F-E22, F-E23. -/
theorem test_encS64_minusTwo : result (exec (.encS64 (-2)) (encoderState [] [.normal])) =
    some (.ok none, [0xFF, 0xFF, 0xFF, 0xFF, 0xFF, 0xFF, 0xFF, 0xFE]) := by decide
theorem test_encS64_least : result (exec (.encS64 (-9223372036854775808)) (encoderState [] [.normal])) =
    some (.ok none, [0x80, 0x00, 0x00, 0x00, 0x00, 0x00, 0x00, 0x00]) := by decide
/-- F-E25 (never 4E FF 80 00, 90_conflicts.md C1), F-E27. -/
theorem test_encF32_nan : result (exec (.encF32 0x7FC00000) (encoderState [] [.normal])) =
    some (.ok none, [0x7F, 0xC0, 0x00, 0x00]) := by decide
theorem test_encF32_signallingNan : result (exec (.encF32 0x7F800001) (encoderState [] [.normal])) =
    some (.ok none, [0x7F, 0x80, 0x00, 0x01]) := by decide
/-- F-E30, F-E31. -/
theorem test_encF64_nan : result (exec (.encF64 0x7FF8000000000001) (encoderState [] [.normal])) =
    some (.ok none, [0x7F, 0xF8, 0x00, 0x00, 0x00, 0x00, 0x00, 0x01]) := by decide
theorem test_encF64_minusZero : result (exec (.encF64 0x8000000000000000) (encoderState [] [.normal])) =
    some (.ok none, [0x80, 0x00, 0x00, 0x00, 0x00, 0x00, 0x00, 0x00]) := by decide

/-! ## The fixed-width decodes (2.2) -/

/-- F-D3, F-D5. -/
theorem test_decBool_two : result (exec .decBool (decoderState [0x02, 0x00] [.normal])) =
    some (.ok (some (.bool true)), [0x00]) := by decide
theorem test_decBool_empty : result (exec .decBool (decoderState [] [.normal])) =
    some (.error (.shortRead 1 0), []) := by decide
/-- F-D6, F-D8. -/
theorem test_decU16 : result (exec .decU16 (decoderState [0x12, 0x34, 0x56] [.normal])) =
    some (.ok (some (.word16 0x1234)), [0x56]) := by decide
/-- P2 counts `pos` so: two bytes consumed of three. -/
theorem test_pos : Decoder.pos ⟨[0x12, 0x34, 0x56], [0x56], ⟨0, 1, []⟩⟩ = 2 := by decide
theorem test_decU16_short : result (exec .decU16 (decoderState [0x7F] [.normal])) =
    some (.error (.shortRead 2 1), []) := by decide
/-- F-D10, F-D11. -/
theorem test_decS16_least : result (exec .decS16 (decoderState [0x80, 0x00] [.normal])) =
    some (.ok (some (.int (-32768))), []) := by decide
theorem test_decS16_greatest : result (exec .decS16 (decoderState [0x7F, 0xFF] [.normal])) =
    some (.ok (some (.int 32767)), []) := by decide
/-- F-D14. -/
theorem test_decChar_surrogate : result (exec .decChar (decoderState [0xDC, 0x00] [.normal])) =
    some (.ok (some (.word16 0xDC00)), []) := by decide
/-- F-D16, F-D35. -/
theorem test_decU32 : result (exec .decU32 (decoderState [0xDE, 0xAD, 0xBE, 0xEF] [.normal])) =
    some (.ok (some (.word32 0xDEADBEEF)), []) := by decide
theorem test_decU32_fails : result (exec .decU32 (decoderState [0x01, 0x02, 0x03, 0x04, 0x05] [.fail ioErr 1])) =
    some (.error (.ioFailure ioErr), [0x02, 0x03, 0x04, 0x05]) := by decide
/-- F-D18, F-D19. -/
theorem test_decS32 : result (exec .decS32 (decoderState [0xDE, 0xAD, 0xBE, 0xEF] [.normal])) =
    some (.ok (some (.int (-559038737))), []) := by decide
theorem test_decS32_least : result (exec .decS32 (decoderState [0x80, 0x00, 0x00, 0x00] [.normal])) =
    some (.ok (some (.int (-2147483648))), []) := by decide
/-- F-D22, F-D23. -/
theorem test_decU64 : result (exec .decU64
      (decoderState [0x01, 0x02, 0x03, 0x04, 0x05, 0x06, 0x07, 0x08, 0x09] [.normal])) =
    some (.ok (some (.word64 0x0102030405060708)), [0x09]) := by decide
theorem test_decU64_short : result (exec .decU64
      (decoderState [0x01, 0x02, 0x03, 0x04, 0x05, 0x06, 0x07] [.normal])) =
    some (.error (.shortRead 8 7), []) := by decide
/-- F-D25, F-D27. -/
theorem test_decS64_least : result (exec .decS64
      (decoderState [0x80, 0x00, 0x00, 0x00, 0x00, 0x00, 0x00, 0x00] [.normal])) =
    some (.ok (some (.int (-9223372036854775808))), []) := by decide
theorem test_decS64_minusTwo : result (exec .decS64
      (decoderState [0xFF, 0xFF, 0xFF, 0xFF, 0xFF, 0xFF, 0xFF, 0xFE] [.normal])) =
    some (.ok (some (.int (-2))), []) := by decide
/-- F-D29, F-D31. -/
theorem test_decF32_signallingNan : result (exec .decF32 (decoderState [0x7F, 0x80, 0x00, 0x01] [.normal])) =
    some (.ok (some (.word32 0x7F800001)), []) := by decide
theorem test_decF32_short : result (exec .decF32 (decoderState [0x3F, 0x80] [.normal])) =
    some (.error (.shortRead 4 2), []) := by decide
/-- F-D33. -/
theorem test_decF64_nan : result (exec .decF64
      (decoderState [0x7F, 0xF8, 0x00, 0x00, 0x00, 0x00, 0x00, 0x01] [.normal])) =
    some (.ok (some (.word64 0x7FF8000000000001)), []) := by decide

/-! ## Text (2.3 to 2.5) -/

/-- T-U1, T-U4, T-U5, T-U7, T-U8, T-U12: the edges of the forms. -/
theorem test_encUnit_null : encUnit 0x0000 = [0xC0, 0x80] := by decide
theorem test_encUnit_oneByte : encUnit 0x007F = [0x7F] := by decide
theorem test_encUnit_twoBytes : encUnit 0x0080 = [0xC2, 0x80] ∧ encUnit 0x07FF = [0xDF, 0xBF] := by decide
theorem test_encUnit_threeBytes : encUnit 0x0800 = [0xE0, 0xA0, 0x80] ∧ encUnit 0xFFFF = [0xEF, 0xBF, 0xBF] := by
  decide
/-- T-E4, T-E14. -/
theorem test_encText_surrogates : result (exec (.encText [0xD83D, 0xDE00]) (encoderState [] [.normal])) =
    some (.ok none, [0x00, 0x06, 0xED, 0xA0, 0xBD, 0xED, 0xB8, 0x80]) := by decide
theorem test_encText_fails : result (exec (.encText [0x0041]) (encoderState [] [.fail ioErr 1])) =
    some (.error (.ioFailure ioErr), [0x00]) := by decide
/-- T-D27, T-D32. -/
theorem test_decText_malformed : result (exec .decText
      (decoderState [0x00, 0x02, 0xC2, 0x00, 0x00, 0x2A] [.normal, .normal])) =
    some (.error (.malformedInput 0 .badContinuation), [0x00, 0x2A]) := by decide
theorem test_decText_bodyFails : result (exec .decText
      (decoderState [0x00, 0x02, 0x41, 0x42, 0x43] [.normal, .fail ioErr 1])) =
    some (.error (.ioFailure ioErr), [0x42, 0x43]) := by decide
/-- The bodies of T-D3, T-D5, T-D7, T-D12. -/
theorem test_body_nonCanonical : decodeBody [0x00] = .ok [0x0000] ∧ decodeBody [0xC1, 0xBF] = .ok [0x007F] ∧
    decodeBody [0xE0, 0x80, 0x80] = .ok [0x0000] := by decide
theorem test_body_mixed : decodeBody [0x48, 0xC3, 0xA9, 0xC0, 0x80] = .ok [0x0048, 0x00E9, 0x0000] := by decide
/-- R153: decoding and encoding again need not give the body back. -/
theorem test_reencode : encodeBody [0x0000] ≠ [0x00] ∧ decodeBody [0xC1, 0x81] = .ok [0x0041] ∧
    encodeBody [0x0041] = [0x41] := by decide
/-- The bodies of T-D18, T-D25, T-D26. -/
theorem test_body_truncatedFirst : decodeBody [0xE0, 0x00] = .error (.malformedInput 0 .truncated) := by decide
theorem test_body_badLead : decodeBody [0x41, 0x42, 0xFF, 0x43] = .error (.malformedInput 2 .badLead) := by decide
theorem test_body_badContinuation : decodeBody [0x41, 0xE0, 0x41, 0x80] =
    .error (.malformedInput 1 .badContinuation) := by decide

/-! ## Illegal requests and the host (2.6; R59) -/

/-- X1, X6, X7. -/
theorem test_request_reserved : result (step (asked (encoderState [0x01] []) (.request 0 ⟨0x0B, .none⟩))) =
    some (.error (.illegalOperation 0x0B), [0x01]) := by decide
theorem test_request_toDecoder : result (step (asked (decoderState [0x00, 0x01] []) (.request 0 ⟨0x01, .word16 5⟩))) =
    some (.error (.illegalOperation 0x01), [0x00, 0x01]) := by decide
theorem test_request_toEncoder : result (step (asked (encoderState [] []) (.request 0 ⟨0x81, .none⟩))) =
    some (.error (.illegalOperation 0x81), []) := by decide
/-- A request of its own kind runs. -/
theorem test_request_runs : result (step (asked (decoderState [0x00, 0x2A] [.normal]) (.request 0 ⟨0x81, .none⟩))) =
    some (.ok (some (.word16 0x002A)), []) := by decide
theorem test_overlap_refused : refusal (step (asked (encoderState [] []) (.overlap 0 ⟨0x01, .word16 1⟩ ⟨0x00, .bool true⟩))) =
    some .overlappingRequests := by decide
/-- A new Encoder has written nothing (R250). -/
theorem test_attach_empty : (State.reset.attachEncoder []).instances = [.encoder ⟨[], ⟨0, 0, []⟩⟩] := by decide

/-! ## Assembler lines (section 3; R76) -/

theorem test_asm_bool : assembleLine "enc.bool true ; a flag".toList = .ok (some ⟨0x00, .bool true⟩) := by decide
theorem test_asm_signed : assembleLine "enc.s16 -2".toList = .ok (some ⟨0x02, .word16 0xFFFE⟩) := by decide
theorem test_asm_signed_range : assembleLine "enc.s16 32768".toList = .error .badOperand := by decide
theorem test_asm_units : assembleLine "enc.text [0x0048, 0x00E9, 0x0000]".toList =
    .ok (some ⟨0x0A, .text [0x0048, 0x00E9, 0x0000]⟩) := by decide
theorem test_asm_emptyText : assembleLine "enc.text \"\"".toList = .ok (some ⟨0x0A, .text []⟩) := by decide
theorem test_asm_f32 : assembleLine "enc.f32 0x7FC00000".toList = .ok (some ⟨0x08, .word32 0x7FC00000⟩) := by decide
/-- R76 says one request a line; that a carriage return does not end one is the model's choice (log entry 23). -/
theorem test_splitLines : splitLines ['a', Char.ofNat 0x0A, 'b', Char.ofNat 0x0D] = [['a'], ['b', Char.ofNat 0x0D]] := by
  decide
theorem test_hexValue : hexValue [1, 2, 11] = 0x12B := by decide
theorem test_asm_program : assemble "dec.u16\n; nothing\nenc.char 0x20ac".toList =
    .ok [⟨0x81, .none⟩, ⟨0x03, .word16 0x20AC⟩] := by decide
theorem test_asm_decode : assembleLine "dec.text".toList = .ok (some ⟨0x8A, .none⟩) := by decide

/-! ## Witnesses: the kinds of hypotheses the statements share -/

/-- The hypotheses of `Writes`. -/
def ServesEncode (s : State) : Prop :=
  ∃ e, s.addressed = some (.encoder e) ∧ e.sink.sinkAnswer = .normal

/-- The hypotheses of `WriteFails`. -/
def FailsEncode (s : State) (err : IOErr) (k : Nat) : Prop :=
  ∃ e, s.addressed = some (.encoder e) ∧ e.sink.sinkAnswer = .fail err k

/-- The hypotheses of `Reads`. -/
def ServesDecode (s : State) (bytes rest : List Byte) : Prop :=
  ∃ d, s.addressed = some (.decoder d) ∧ d.source.srcAnswer = .normal ∧ d.inp = bytes ++ rest

/-- The hypotheses of `ReadsShort`. -/
def ShortDecode (s : State) (n : Nat) : Prop :=
  ∃ d, s.addressed = some (.decoder d) ∧ d.source.srcAnswer = .normal ∧ d.inp.length < n

/-- The hypotheses of `ReadFails`. -/
def FailsDecode (s : State) (err : IOErr) (k : Nat) : Prop :=
  ∃ d, s.addressed = some (.decoder d) ∧ d.source.srcAnswer = .fail err k

/-- The hypotheses of the statements about errors: an operation that ends with `err`. -/
def EndsWith (i : Instr) (s : State) (err : Err) : Prop :=
  ∃ t, exec i s = .next t ∧ t.replies = s.replies ++ [⟨s.target, .error err⟩]

theorem servesEncode (out : List Byte) : ServesEncode (encoderState out [.normal]) := ⟨_, rfl, rfl⟩
theorem failsEncode (out : List Byte) (k : Nat) : FailsEncode (encoderState out [.fail ioErr k]) ioErr k :=
  ⟨_, rfl, rfl⟩
theorem servesDecode (bytes rest : List Byte) : ServesDecode (decoderState (bytes ++ rest) [.normal]) bytes rest :=
  ⟨_, rfl, rfl, rfl⟩
theorem failsDecode (inp : List Byte) (k : Nat) : FailsDecode (decoderState inp [.fail ioErr k]) ioErr k :=
  ⟨_, rfl, rfl⟩

/-- A text of `n` units 0x0041. -/
def manyAs (n : Nat) : Text :=
  List.replicate n 0x0041

theorem manyAs_textLength (n : Nat) : textLength (manyAs n) = n := by
  simp [textLength, manyAs, formLength]

theorem manyAs_bodyLength (n : Nat) : (encodeBody (manyAs n)).length = n := by
  simp [encodeBody, manyAs, encUnit]

/-- The length bound at work: 65536 units never reach the sink. -/
theorem manyAs_tooLong (out : List Byte) (answers : List StreamAnswer) :
    EndsWith (.encText (manyAs 65536)) (encoderState out answers) (.lengthExceeded 65536) := by
  have h : textEncode (manyAs 65536) ⟨out, ⟨0, 0, answers⟩⟩ =
      (.error (.lengthExceeded 65536), ⟨out, ⟨0, 0, answers⟩⟩) := by
    rw [textEncode_tooLong (by rw [manyAs_bodyLength]; decide), manyAs_bodyLength]
  refine ⟨_, State.onEncoder_encoder (s := encoderState out answers) (e := ⟨out, ⟨0, 0, answers⟩⟩) rfl 0x0A
    (textEncode (manyAs 65536)), ?_⟩
  rw [h]; rfl

/-! ## Witnesses, statement by statement -/

theorem witness_IdleStepChangesNothing : State.reset.host = [] := rfl

theorem witness_AttachGivesResetState :
    (asked State.reset (.attachEncoder [.normal])).host = [.attachEncoder [.normal]] ∧
    (asked State.reset (.attachDecoder [0x2A] [])).host = [.attachDecoder [0x2A] []] := ⟨rfl, rfl⟩

theorem witness_StepRunsDecodedRequest :
    (asked (encoderState [] []) (.request 0 ⟨0x01, .word16 0xBEEF⟩)).host = [.request 0 ⟨0x01, .word16 0xBEEF⟩] ∧
    0 < (encoderState [] []).instances.length ∧ decode ⟨0x01, .word16 0xBEEF⟩ = .ok (.encU16 0xBEEF) := by
  refine ⟨rfl, ?_, ?_⟩ <;> decide

theorem witness_OverlapIsRefused :
    (asked (encoderState [] []) (.overlap 0 ⟨0x01, .word16 1⟩ ⟨0x01, .word16 2⟩)).host =
      [.overlap 0 ⟨0x01, .word16 1⟩ ⟨0x01, .word16 2⟩] := rfl

/-- One instance, number 0, and a request to number 1; a text sent with an opcode that takes a word, and a word with one
that takes none; the integers just outside each range. -/
theorem witness_UnwritableRequestsStop :
    ((asked (encoderState [] []) (.request 1 ⟨0x81, .none⟩)).host = [.request 1 ⟨0x81, .none⟩] ∧
      (encoderState [] []).instances.length ≤ 1) ∧
    ((encoderState [] []).instances[0]? = some (.encoder ⟨[], ⟨0, 0, []⟩⟩) ∧ directionOf 0x01 = .enc ∧
      decode ⟨0x01, .text []⟩ = .error (.operandMismatch 0x01)) ∧
    ((decoderState [] []).instances[0]? = some (.decoder ⟨[], [], ⟨0, 0, []⟩⟩) ∧ directionOf 0x81 = .dec ∧
      decode ⟨0x81, .word16 0⟩ = .error (.operandMismatch 0x81)) ∧
    (¬ (-32768 ≤ (32768 : Int) ∧ (32768 : Int) ≤ 32767) ∧ ¬ (-32768 ≤ (-32769 : Int) ∧ (-32769 : Int) ≤ 32767)) ∧
    ¬ (-2147483648 ≤ (2147483648 : Int) ∧ (2147483648 : Int) ≤ 2147483647) ∧
    ¬ (-9223372036854775808 ≤ (-9223372036854775809 : Int) ∧ (-9223372036854775809 : Int) ≤ 9223372036854775807) := by
  refine ⟨⟨rfl, ?_⟩, ⟨rfl, ?_, ?_⟩, ⟨rfl, ?_, ?_⟩, ⟨?_, ?_⟩, ?_, ?_⟩ <;> decide

theorem witness_ReservedOpcodesRaiseIllegalOperation :
    (asked (encoderState [0x01] []) (.request 0 ⟨0x0B, .bool true⟩)).host = [.request 0 ⟨0x0B, .bool true⟩] ∧
    0 < (encoderState [0x01] []).instances.length ∧ decodeOpcode 0x0B = none ∧ decodeOpcode 0x10 = none ∧
    decodeOpcode 0xFF = none := by
  refine ⟨rfl, ?_, ?_, ?_, ?_⟩ <;> decide

theorem witness_WrongDirectionRaisesIllegalOperation :
    ((asked (encoderState [] []) (.request 0 ⟨0x81, .none⟩)).host = [.request 0 ⟨0x81, .none⟩] ∧
      (0x81#8).getLsbD 7 = true ∧ ∃ e, (encoderState [] []).instances[0]? = some (.encoder e)) ∧
    ((asked (decoderState [] []) (.request 0 ⟨0x01, .text []⟩)).host = [.request 0 ⟨0x01, .text []⟩] ∧
      (0x01#8).getLsbD 7 = false ∧ ∃ d, (decoderState [] []).instances[0]? = some (.decoder d)) :=
  ⟨⟨rfl, by decide, _, rfl⟩, rfl, by decide, _, rfl⟩

theorem witness_MisdirectedInstructionChangesNothing :
    (Instr.wellFormed (.encS16 (-32768)) = true ∧
      (decoderState [] []).addressed = some (.decoder ⟨[], [], ⟨0, 0, []⟩⟩) ∧
      Instr.direction (.encS16 (-32768)) ≠ Instance.direction (.decoder ⟨[], [], ⟨0, 0, []⟩⟩)) ∧
    (Instr.wellFormed .decText = true ∧ (encoderState [] []).addressed = some (.encoder ⟨[], ⟨0, 0, []⟩⟩) ∧
      Instr.direction .decText ≠ Instance.direction (.encoder ⟨[], ⟨0, 0, []⟩⟩)) := by
  refine ⟨⟨?_, rfl, ?_⟩, ?_, rfl, ?_⟩ <;> decide

theorem witness_DecodeEncodeAgree :
    Instr.wellFormed (.encS16 (-32768)) = true ∧ Instr.wellFormed (.encS32 2147483647) = true ∧
    Instr.wellFormed (.encS64 (-9223372036854775808)) = true ∧ Instr.wellFormed .decText = true := by decide

theorem witness_EncodeDecodeAgree : decode ⟨0x05, .word32 0x80000000⟩ = .ok (.encS32 (-2147483648)) := by decide

theorem witness_SignedBitsAreTwosComplement :
    1 ≤ 16 ∧ inSignedRange 16 (-32768) = true ∧ inSignedRange 16 32767 = true ∧
    1 ≤ 1 ∧ inSignedRange 1 (-1) = true ∧ inSignedRange 1 0 = true := by decide

theorem witness_BigEndianBytes : 0 < 2 ∧ 1 < 2 ∧ List.length [0x12#8, 0x34#8] = 2 := by decide

/-- Just enough bytes, one too few, and a failure at both ends of the draw and beyond it. -/
theorem witness_SourceReads :
    ServesDecode (decoderState [0x12, 0x34] [.normal]) [0x12, 0x34] [] ∧
    ShortDecode (decoderState [0x12] [.normal]) 2 ∧
    FailsDecode (decoderState [0x12, 0x34] [.fail ioErr 0]) ioErr 0 ∧
    FailsDecode (decoderState [0x12, 0x34] [.fail ioErr 2]) ioErr 2 ∧
    FailsDecode (decoderState [0x12, 0x34] [.fail ioErr 3]) ioErr 3 :=
  ⟨⟨_, rfl, rfl, rfl⟩, ⟨_, rfl, rfl, by decide⟩, failsDecode _ _, failsDecode _ _, failsDecode _ _⟩

theorem witness_SinkWrites :
    1 ≤ [0x12#8].length ∧ ServesEncode (encoderState [] [.normal]) ∧
    FailsEncode (encoderState [] [.fail ioErr 0]) ioErr 0 ∧ FailsEncode (encoderState [] [.fail ioErr 1]) ioErr 1 ∧
    FailsEncode (encoderState [] [.fail ioErr 2]) ioErr 2 :=
  ⟨by decide, servesEncode _, failsEncode _ _, failsEncode _ _, failsEncode _ _⟩

theorem witness_OneWritePerEncode :
    (encoderState [] [.normal]).addressed = some (.encoder ⟨[], ⟨0, 0, [.normal]⟩⟩) ∧
    (Instr.wellFormed (.encS16 (-2)) = true ∧ Instr.direction (.encS16 (-2)) = .enc ∧
      wireImage (.encS16 (-2)) = some [0xFF, 0xFE]) ∧
    wireImage (.encText (manyAs 65536)) = none := by
  refine ⟨rfl, ⟨by decide, rfl, by decide⟩, ?_⟩
  rw [wireImage, if_pos]; rw [manyAs_bodyLength]; decide

theorem witness_EncBoolWritesOneByte :
    ServesEncode (encoderState [0xAA] [.normal]) ∧ FailsEncode (encoderState [0xAA] [.fail ioErr 1]) ioErr 1 :=
  ⟨servesEncode _, failsEncode _ _⟩

theorem witness_EncodesOf16Bits :
    ServesEncode (encoderState [0xAA] [.normal]) ∧ FailsEncode (encoderState [0xAA] [.fail ioErr 1]) ioErr 1 ∧
    (-32768 : Int) ≤ -32768 ∧ (-32768 : Int) ≤ 32767 ∧ (32767 : Int) ≤ 32767 :=
  ⟨servesEncode _, failsEncode _ _, by decide⟩

theorem witness_EncodesOf32Bits :
    ServesEncode (encoderState [0xAA] [.normal]) ∧ FailsEncode (encoderState [0xAA] [.fail ioErr 3]) ioErr 3 ∧
    (-2147483648 : Int) ≤ -2147483648 ∧ (-2147483648 : Int) ≤ 2147483647 ∧ (2147483647 : Int) ≤ 2147483647 :=
  ⟨servesEncode _, failsEncode _ _, by decide⟩

theorem witness_EncodesOf64Bits :
    ServesEncode (encoderState [0xAA] [.normal]) ∧ FailsEncode (encoderState [0xAA] [.fail ioErr 7]) ioErr 7 ∧
    (-9223372036854775808 : Int) ≤ -9223372036854775808 ∧ (-9223372036854775808 : Int) ≤ 9223372036854775807 ∧
    (9223372036854775807 : Int) ≤ 9223372036854775807 :=
  ⟨servesEncode _, failsEncode _ _, by decide⟩

theorem witness_DecBoolReadsOneByte :
    ServesDecode (decoderState [0x02, 0x00] [.normal]) [0x02] [0x00] ∧ ShortDecode (decoderState [] [.normal]) 1 ∧
    FailsDecode (decoderState [0x02] [.fail ioErr 1]) ioErr 1 :=
  ⟨servesDecode [_] [_], ⟨_, rfl, rfl, by decide⟩, failsDecode _ _⟩

theorem witness_DecodesOf16Bits :
    ServesDecode (decoderState [0x12, 0x34, 0x56] [.normal]) [0x12, 0x34] [0x56] ∧
    ShortDecode (decoderState [0x12] [.normal]) 2 ∧ FailsDecode (decoderState [0x12] [.fail ioErr 1]) ioErr 1 :=
  ⟨servesDecode [_, _] [_], ⟨_, rfl, rfl, by decide⟩, failsDecode _ _⟩

theorem witness_DecodesOf32Bits :
    ServesDecode (decoderState [0xDE, 0xAD, 0xBE, 0xEF] [.normal]) [0xDE, 0xAD, 0xBE, 0xEF] [] ∧
    ShortDecode (decoderState [1, 2, 3] [.normal]) 4 ∧
    FailsDecode (decoderState [1, 2, 3, 4, 5] [.fail ioErr 1]) ioErr 1 :=
  ⟨⟨_, rfl, rfl, rfl⟩, ⟨_, rfl, rfl, by decide⟩, failsDecode _ _⟩

theorem witness_DecodesOf64Bits :
    ServesDecode (decoderState [1, 2, 3, 4, 5, 6, 7, 8, 9] [.normal]) [1, 2, 3, 4, 5, 6, 7, 8] [9] ∧
    ShortDecode (decoderState [1, 2, 3, 4, 5, 6, 7] [.normal]) 8 ∧
    FailsDecode (decoderState [1, 2, 3] [.fail ioErr 0]) ioErr 0 :=
  ⟨servesDecode [_, _, _, _, _, _, _, _] [_], ⟨_, rfl, rfl, by decide⟩, failsDecode _ _⟩

theorem witness_SharedLayouts :
    (∃ e, (encoderState [] [.normal]).addressed = some (.encoder e)) ∧
    (∃ d, (decoderState [0xFF, 0xFE] [.normal]).addressed = some (.decoder d)) ∧
    ((-32768 : Int) ≤ -2 ∧ (-2 : Int) ≤ 32767) ∧ ((-2147483648 : Int) ≤ -2 ∧ (-2 : Int) ≤ 2147483647) ∧
    ((-9223372036854775808 : Int) ≤ -2 ∧ (-2 : Int) ≤ 9223372036854775807) ∧
    (∃ x, exec .decU16 (decoderState [0xFF, 0xFE] [.normal]) =
      .next ((decoderState [0xFF, 0xFE] [.normal]).afterReply x (.ok (some (.word16 0xFFFE))))) ∧
    (∃ x, exec .decU32 (decoderState [0xDE, 0xAD, 0xBE, 0xEF] [.normal]) =
      .next ((decoderState [0xDE, 0xAD, 0xBE, 0xEF] [.normal]).afterReply x (.ok (some (.word32 0xDEADBEEF))))) ∧
    (∃ x, exec .decU64 (decoderState [0, 0, 0, 0, 0, 0, 0, 1] [.normal]) =
      .next ((decoderState [0, 0, 0, 0, 0, 0, 0, 1] [.normal]).afterReply x (.ok (some (.word64 1))))) :=
  ⟨⟨_, rfl⟩, ⟨_, rfl⟩, by decide, by decide, by decide, ⟨_, rfl⟩, ⟨_, rfl⟩, _, rfl⟩

theorem witness_FixedWidthRoundTrip :
    ServesEncode (encoderState [] [.normal]) ∧
    ServesDecode (decoderState [0x80, 0x00, 0x07] [.normal]) [0x80, 0x00] [0x07] ∧
    ((-32768 : Int) ≤ -32768 ∧ (-32768 : Int) ≤ 32767) ∧
    ((-2147483648 : Int) ≤ 2147483647 ∧ (2147483647 : Int) ≤ 2147483647) ∧
    ((-9223372036854775808 : Int) ≤ -9223372036854775808 ∧ (-9223372036854775808 : Int) ≤ 9223372036854775807) :=
  ⟨servesEncode _, servesDecode [_, _] [_], by decide, by decide, by decide⟩

theorem witness_MixedWidths :
    ServesEncode (encoderState [] [.normal]) ∧
    ServesDecode (decoderState [0x12, 0x34, 0x56, 0x78] [.normal]) [0x12, 0x34, 0x56, 0x78] [] ∧
    ServesDecode (decoderState [0x12, 0x34, 0x56, 0x78] [.normal]) [0x12, 0x34] [0x56, 0x78] :=
  ⟨servesEncode _, ⟨_, rfl, rfl, rfl⟩, servesDecode [_, _] [_, _]⟩

/-- The largest body that fits and the smallest that does not. -/
theorem witness_EncTextWritesFrame :
    textLength (manyAs 65535) ≤ 65535 ∧ 65535 < textLength (manyAs 65536) ∧
    ServesEncode (encoderState [] [.normal]) ∧ FailsEncode (encoderState [] [.fail ioErr 1]) ioErr 1 :=
  ⟨by rw [manyAs_textLength], by rw [manyAs_textLength]; decide, servesEncode _, failsEncode _ _⟩

/-- An empty body; a body that decodes; one that does not; a body cut short by one byte; a source that fails in the
body; the length field cut short or failing. -/
theorem witness_DecTextReadsFrame :
    ServesDecode (decoderState [0x00, 0x00, 0x07] [.normal]) [0x00, 0x00] [0x07] ∧
    (0 < (0x00#8).toNat * 256 + (0x02#8).toNat ∧ [0xC2#8, 0x80#8].length = (0x00#8).toNat * 256 + (0x02#8).toNat ∧
      ∃ d, (decoderState [0x00, 0x02, 0xC2, 0x80, 0x07] [.normal, .normal]).addressed = some (.decoder d) ∧
        d.source.srcAnswer = .normal ∧ d.source.answered.srcAnswer = .normal ∧
        d.inp = 0x00 :: 0x02 :: ([0xC2, 0x80] ++ [0x07])) ∧
    (decodeBody [0xC2, 0x80] = .ok [0x0080] ∧
      decodeBody [0xC2, 0x00] = .error (.malformedInput 0 .badContinuation)) ∧
    (∃ d, (decoderState [0x00, 0x02, 0x41] [.normal, .normal]).addressed = some (.decoder d) ∧
        d.source.srcAnswer = .normal ∧ d.source.answered.srcAnswer = .normal ∧ d.inp = 0x00 :: 0x02 :: [0x41] ∧
        [0x41#8].length < (0x00#8).toNat * 256 + (0x02#8).toNat) ∧
    (∃ d, (decoderState [0x00, 0x02, 0x41] [.normal, .fail ioErr 1]).addressed = some (.decoder d) ∧
        d.source.srcAnswer = .normal ∧ d.source.answered.srcAnswer = .fail ioErr 1 ∧ d.inp = 0x00 :: 0x02 :: [0x41]) ∧
    ShortDecode (decoderState [0x00] [.normal]) 2 ∧ FailsDecode (decoderState [0x00] [.fail ioErr 1]) ioErr 1 :=
  ⟨servesDecode [_, _] [_], ⟨by decide, by decide, _, rfl, rfl, rfl, rfl⟩, by decide,
    ⟨_, rfl, rfl, rfl, rfl, by decide⟩, ⟨_, rfl, rfl, rfl, rfl⟩, ⟨_, rfl, rfl, by decide⟩, failsDecode _ _⟩

/-- Both ends of each lead class, and a continuation byte on either side of its range. -/
theorem witness_FirstMalformedFormDecides :
    (0x80 ≤ (0x80#8).toNat ∧ (0x80#8).toNat ≤ 0xBF) ∧ (0x80 ≤ (0xBF#8).toNat ∧ (0xBF#8).toNat ≤ 0xBF) ∧
    0xF0 ≤ (0xF0#8).toNat ∧ 0xF0 ≤ (0xFF#8).toNat ∧
    (0xC0 ≤ (0xC0#8).toNat ∧ (0xC0#8).toNat ≤ 0xDF) ∧ (0xC0 ≤ (0xDF#8).toNat ∧ (0xDF#8).toNat ≤ 0xDF) ∧
    (0xE0 ≤ (0xE0#8).toNat ∧ (0xE0#8).toNat ≤ 0xEF) ∧ (0xE0 ≤ (0xEF#8).toNat ∧ (0xEF#8).toNat ≤ 0xEF) ∧
    ¬ (0x80 ≤ (0x7F#8).toNat ∧ (0x7F#8).toNat ≤ 0xBF) ∧ ¬ (0x80 ≤ (0xC0#8).toNat ∧ (0xC0#8).toNat ≤ 0xBF) := by
  decide

theorem witness_TextRoundTrip :
    textLength (manyAs 65535) ≤ 65535 ∧ ServesEncode (encoderState [] [.normal]) ∧
    ∃ d, (decoderState [0x00, 0x01, 0x41, 0x07] [.normal, .normal]).addressed = some (.decoder d) ∧
      d.source.srcAnswer = .normal ∧ d.source.answered.srcAnswer = .normal ∧ d.inp = [0x00, 0x01, 0x41] ++ [0x07] :=
  ⟨by rw [manyAs_textLength], servesEncode _, _, rfl, rfl, rfl, rfl⟩

theorem witness_DecodedTextIsNoLonger :
    decodeBody [0x41, 0x7F] = .ok [0x0041, 0x007F] ∧ decodeBody [0x41, 0xC2, 0x80] = .ok [0x0041, 0x0080] ∧
    ∃ s', exec .decText (decoderState [0x00, 0x01, 0x41] [.normal, .normal]) = .next s' ∧
      s'.replies = (decoderState [0x00, 0x01, 0x41] [.normal, .normal]).replies ++
        [⟨0, .ok (some (.text [0x0041]))⟩] :=
  ⟨by decide, by decide, _, rfl, rfl⟩

theorem witness_TextLengthBounds : (manyAs 21845).length ≤ 21845 ∧ 65535 < (manyAs 65536).length := by
  rw [manyAs, List.length_replicate, manyAs, List.length_replicate]; decide

theorem witness_NonCanonicalFormsAreAccepted :
    (0xC0#8 = 0xC0#8 ∧ 0x80 ≤ (0x80#8).toNat ∧ (0x80#8).toNat ≤ 0xBF) ∧
    (0xC1#8 = 0xC1#8 ∧ 0x80 ≤ (0xBF#8).toNat ∧ (0xBF#8).toNat ≤ 0xBF) ∧
    (0x80 ≤ (0x80#8).toNat ∧ (0x80#8).toNat ≤ 0x9F) ∧ (0x80 ≤ (0x9F#8).toNat ∧ (0x9F#8).toNat ≤ 0x9F) := by decide

theorem witness_SurrogatesAreIndependentUnits :
    0xD800 ≤ (0xD800#16).toNat ∧ (0xD800#16).toNat ≤ 0xDFFF ∧ 0xD800 ≤ (0xDFFF#16).toNat ∧
    (0xDFFF#16).toNat ≤ 0xDFFF := by decide

/-- One operation ending in each of the five errors, a decode and an encode that end well. -/
theorem witness_ErrorsComeFromTheirOperations :
    EndsWith .decU16 (decoderState [0x7F] [.normal]) (.shortRead 2 1) ∧
    EndsWith .decText (decoderState [0x00, 0x01, 0x80] [.normal, .normal]) (.malformedInput 0 .badLead) ∧
    EndsWith (.encText (manyAs 65536)) (encoderState [0xAB] []) (.lengthExceeded 65536) ∧
    EndsWith (.encU16 0xBEEF) (encoderState [] [.fail ioErr 1]) (.ioFailure ioErr) ∧
    EndsWith .decText (decoderState [0x00, 0x01] [.normal, .fail ioErr 0]) (.ioFailure ioErr) ∧
    EndsWith .decBool (encoderState [] []) (.illegalOperation 0x80) ∧
    (∃ t, exec .decBool (decoderState [0x01] [.normal]) = .next t ∧
      t.replies = (decoderState [0x01] [.normal]).replies ++ [⟨0, .ok (some (.bool true))⟩]) ∧
    (∃ t, exec (.encBool true) (encoderState [] [.normal]) = .next t ∧
      t.replies = (encoderState [] [.normal]).replies ++ [⟨0, .ok none⟩]) :=
  ⟨⟨_, rfl, rfl⟩, ⟨_, rfl, rfl⟩, manyAs_tooLong _ _, ⟨_, rfl, rfl⟩, ⟨_, rfl, rfl⟩, ⟨_, rfl, rfl⟩, ⟨_, rfl, rfl⟩, _, rfl,
    rfl⟩

theorem witness_ErrorsArePrecise :
    EndsWith .decU16 (decoderState [0x7F] [.normal]) (.shortRead 2 1) ∧
    EndsWith .decText (decoderState [0x00, 0x01, 0x80] [.normal, .normal]) (.malformedInput 0 .badLead) ∧
    EndsWith (.encText (manyAs 65536)) (encoderState [0xAB] []) (.lengthExceeded 65536) ∧
    EndsWith (.encU16 0xBEEF) (encoderState [] [.fail ioErr 1]) (.ioFailure ioErr) ∧
    EndsWith .decText (decoderState [0x00, 0x01] [.normal, .fail ioErr 0]) (.ioFailure ioErr) ∧
    EndsWith .decBool (encoderState [] []) (.illegalOperation 0x80) :=
  ⟨⟨_, rfl, rfl⟩, ⟨_, rfl, rfl⟩, manyAs_tooLong _ _, ⟨_, rfl, rfl⟩, ⟨_, rfl, rfl⟩, _, rfl, rfl⟩

theorem witness_EveryInstructionIsAnswered :
    Instr.wellFormed (.encS64 9223372036854775807) = true ∧
    (encoderState [] []).addressed = some (.encoder ⟨[], ⟨0, 0, []⟩⟩) := ⟨by decide, rfl⟩

theorem witness_ShortReadIsForGood :
    EndsWith .decU32 (decoderState [0x01] [.normal]) (.shortRead 4 1) ∧
    (Instr.direction .decBool = .dec ∧ ∃ d, (decoderState [] [.normal]).addressed = some (.decoder d) ∧ d.inp = [] ∧
      d.source.srcAnswer = .normal) ∧
    (∃ t d, step (asked (decoderState [] [.normal]) (.attachDecoder [0x2A] [])) = .next t ∧
      (decoderState [] [.normal]).instances[0]? = some (.decoder d) ∧ d.inp = []) :=
  ⟨⟨_, rfl, rfl⟩, ⟨rfl, _, rfl, rfl, rfl⟩, _, _, rfl, rfl, rfl⟩

/-- The same instance, alone and as number 1 beside an Encoder. -/
theorem witness_InstancesAreIndependent :
    ∃ s', (decoderState [0x01] [.normal]).addressed =
        State.addressed ⟨(encoderState [] []).instances ++ (decoderState [0x01] [.normal]).instances, [], 1, []⟩ ∧
      exec .decBool (decoderState [0x01] [.normal]) = .next s' := ⟨_, rfl, rfl⟩

theorem witness_EncodeFrame :
    Instr.direction (.encU16 0xBEEF) = .enc ∧
    (∃ t, exec (.encU16 0xBEEF) (encoderState [] [.normal]) = .next t) ∧
    (∃ t, exec (.encU16 0xBEEF) (decoderState [] []) = .next t) ∧
    (∃ e, (encoderState [] [.normal]).addressed = some (.encoder e)) ∧
    (∃ d, (decoderState [] []).addressed = some (.decoder d)) ∧ 1 ≠ (encoderState [] []).target ∧
    wireImage (.encU16 0xBEEF) = some [0xBE, 0xEF] ∧
    (wireImage (.encText (manyAs 65536)) = none ∧ ∃ t, exec (.encText (manyAs 65536)) (encoderState [] []) = .next t) :=
  ⟨rfl, ⟨_, rfl⟩, ⟨_, rfl⟩, ⟨_, rfl⟩, ⟨_, rfl⟩, by decide, by decide, witness_OneWritePerEncode.2.2,
    let ⟨t, h, _⟩ := manyAs_tooLong [] []; ⟨t, h⟩⟩

theorem witness_DecodeFrame :
    Instr.direction .decText = .dec ∧
    (∃ t, exec .decText (decoderState [0x00, 0x00] [.normal]) = .next t) ∧
    (∃ t, exec .decText (encoderState [] []) = .next t) ∧
    (∃ d, (decoderState [0x00, 0x00] [.normal]).addressed = some (.decoder d)) ∧
    (∃ e, (encoderState [] []).addressed = some (.encoder e)) ∧ 1 ≠ (decoderState [] []).target :=
  ⟨rfl, ⟨_, rfl⟩, ⟨_, rfl⟩, ⟨_, rfl⟩, ⟨_, rfl⟩, by decide⟩

/-- A Decoder about to read, in a state with a response already given. -/
theorem witness_StepKeepsInvariant :
    State.Inv ⟨(decoderState [0x2A] [.normal]).instances, [.request 0 ⟨0x80, .none⟩], 0,
        [⟨0, .error (.shortRead 65535 65534)⟩]⟩ ∧
    ∃ t, step ⟨(decoderState [0x2A] [.normal]).instances, [.request 0 ⟨0x80, .none⟩], 0,
        [⟨0, .error (.shortRead 65535 65534)⟩]⟩ = .next t := by
  refine ⟨⟨fun n d h => ?_, fun n x h => ?_, fun p h => ?_⟩, _, rfl⟩
  · cases n with
    | zero => cases h; exact List.suffix_refl _
    | succ n => cases h
  · cases n with
    | zero => cases h; rfl
    | succ n => cases h
  · rw [List.mem_singleton] at h
    subst h
    exact ⟨by decide, by decide, by decide⟩

theorem witness_StreamsOnlyAdvance :
    ∃ t, step (asked (encoderState [0x01] [.normal]) (.request 0 ⟨0x00, .bool true⟩)) = .next t := ⟨_, rfl⟩

theorem witness_LawfulHostIsNeverStopped :
    (asked State.reset (.attachEncoder [])).host = [.attachEncoder []] ∧
    HostAction.lawful State.reset (.attachEncoder []) ∧ HostAction.lawful State.reset (.attachDecoder [0x01] []) ∧
    HostAction.lawful (encoderState [] []) (.request 0 ⟨0x01, .word16 7⟩) :=
  ⟨rfl, trivial, trivial, by decide, by decide⟩

theorem witness_QuotedTextAssembles :
    ∀ c ∈ ['H', ';', ' ', '~'], 0x20 ≤ c.toNat ∧ c.toNat ≤ 0x7E ∧ c.toNat ≠ 0x22 ∧ c.toNat ≠ 0x5C := by simp

theorem witness_DecodeMnemonicsAssemble :
    ("dec.text", 0x8A#8) ∈ [("dec.bool", 0x80#8), ("dec.u16", 0x81#8), ("dec.s16", 0x82#8), ("dec.char", 0x83#8),
      ("dec.u32", 0x84#8), ("dec.s32", 0x85#8), ("dec.u64", 0x86#8), ("dec.s64", 0x87#8), ("dec.f32", 0x88#8),
      ("dec.f64", 0x89#8), ("dec.text", 0x8A#8)] := by decide

/-- Both cases of a digit, and the shortest and longest literal of each width. -/
theorem witness_HexOperandsAssemble :
    (spellsHex ['7'] [7] ∧ 1 ≤ [7].length) ∧
    (spellsHex ['b', 'E', '0', 'F'] [11, 14, 0, 15] ∧ [11, 14, 0, 15].length ≤ 4) ∧
    (spellsHex (List.replicate 8 'f') (List.replicate 8 15) ∧ (List.replicate 8 15).length ≤ 8) ∧
    (spellsHex (List.replicate 16 'A') (List.replicate 16 10) ∧ (List.replicate 16 10).length ≤ 16) := by
  simp [spellsHex, lowerHexDigits, upperHexDigits, List.replicate]

end Sys2Proof.Tests
end

/-! PROOFS. Words as signed integers and as big-endian bytes (00_scope.md R9, R10), and what a fixed-width encode and
decode do on a serving stream (40_fixed_width.md R100, R101). Settles O15, O16 and O29. -/

namespace Sys2Proof

/-! ## Signed interpretation -/

/-- R10's formula is the library's two's-complement reading; the width 0 needs no exception. -/
theorem toSigned_eq_toInt {n : Nat} (w : BitVec n) : toSigned w = w.toInt := by
  have hhalf : w.toNat < 2 ^ (n - 1) ↔ 2 * w.toNat < 2 ^ n := by
    cases n with
    | zero => simp [BitVec.of_length_zero]
    | succ m => rw [Nat.add_sub_cancel, pow_succ]; omega
  simp [toSigned, BitVec.toInt, hhalf]

/-- R10's reduction modulo `2^n` is the library's. -/
theorem toBits_eq_ofInt (n : Nat) (i : Int) : toBits n i = BitVec.ofInt n i := by
  apply BitVec.eq_of_toNat_eq
  have hpos : (0 : Int) < 2 ^ n := by positivity
  have hlt : (i % 2 ^ n).toNat < 2 ^ n := by
    rw [Int.toNat_lt (Int.emod_nonneg i hpos.ne'), Nat.cast_pow]
    exact Int.emod_lt_of_pos i hpos
  simp [toBits, Nat.mod_eq_of_lt hlt]

theorem inSignedRange_iff {n : Nat} {v : Int} :
    inSignedRange n v = true ↔ -(2 : Int) ^ (n - 1) ≤ v ∧ v < 2 ^ (n - 1) := by
  simp [inSignedRange]

theorem inSignedRange_toSigned {n : Nat} (w : BitVec n) : inSignedRange n (toSigned w) = true := by
  rw [inSignedRange_iff, toSigned_eq_toInt]
  exact ⟨BitVec.le_toInt w, BitVec.toInt_lt⟩

@[simp] theorem toBits_toSigned {n : Nat} (w : BitVec n) : toBits n (toSigned w) = w := by
  rw [toSigned_eq_toInt, toBits_eq_ofInt, BitVec.ofInt_toInt]

theorem toSigned_toBits {n : Nat} (hn : 1 ≤ n) {i : Int} (h : inSignedRange n i = true) :
    toSigned (toBits n i) = i := by
  obtain ⟨hlo, hhi⟩ := inSignedRange_iff.mp h
  rw [toSigned_eq_toInt, toBits_eq_ofInt]
  exact BitVec.toInt_ofInt_eq_self hn hlo hhi

theorem toNat_toBits (n : Nat) (i : Int) : ((toBits n i).toNat : Int) = i % 2 ^ n := by
  have hnonneg : 0 ≤ i % ((2 ^ n : Nat) : Int) := Int.emod_nonneg i (by positivity)
  rw [toBits_eq_ofInt, BitVec.toNat_ofInt, Int.toNat_of_nonneg hnonneg, Nat.cast_pow, Nat.cast_ofNat]

end Sys2Proof

/-- Settles O15: both formulas are the library's `BitVec.toInt` and `BitVec.ofInt`. -/
theorem signedBitsAreTwosComplement : Obligations.SignedBitsAreTwosComplement := by
  intro n hn
  exact ⟨fun w => ⟨Sys2Proof.inSignedRange_toSigned w, Sys2Proof.toBits_toSigned w, rfl⟩,
    fun i hi => ⟨Sys2Proof.toSigned_toBits hn hi, Sys2Proof.toNat_toBits n i⟩⟩

namespace Sys2Proof.Machine

/-! ## Big-endian bytes -/

@[simp] theorem beBytes_length {m : Nat} (n : Nat) (w : BitVec m) : (beBytes n w).length = n := by
  induction n with
  | zero => rfl
  | succ n ih => simp [ih]

/-- The `k`-th byte of `BE_n` counts its bits from the top. -/
theorem beBytes_getElem? {m n k : Nat} (w : BitVec m) (hk : k < n) :
    (beBytes n w)[k]? = some (w.extractLsb' (8 * (n - 1 - k)) 8) := by
  induction n generalizing k with
  | zero => omega
  | succ n ih =>
    cases k with
    | zero => rfl
    | succ k =>
      rw [beBytes_succ, List.getElem?_cons_succ, ih (by omega), show n + 1 - 1 - (k + 1) = n - 1 - k by omega]

/-- `BE_n` keeps the low `8n` bits and no others. -/
theorem fromBE_beBytes {m : Nat} (n : Nat) (w : BitVec m) : fromBE (beBytes n w) = w.toNat % 2 ^ (8 * n) := by
  induction n with
  | zero => simp [Nat.mod_one]
  | succ n ih =>
    calc fromBE (beBytes (n + 1) w)
        = w.toNat / 2 ^ (8 * n) % 2 ^ 8 * 2 ^ (8 * n) + w.toNat % 2 ^ (8 * n) := by
          simp [ih, Nat.shiftRight_eq_div_pow]
      _ = w.toNat % (2 ^ (8 * n) * 2 ^ 8) := by rw [Nat.mod_mul]; ring
      _ = w.toNat % 2 ^ (8 * (n + 1)) := by rw [← pow_add]; rfl

/-- A word whose width is all of the field is what its bytes stand for. -/
theorem fromBE_beBytes_full {n : Nat} (w : BitVec (8 * n)) : fromBE (beBytes n w) = w.toNat := by
  rw [fromBE_beBytes, Nat.mod_eq_of_lt w.isLt]

/-- R9's sum, with the first byte the heaviest. -/
theorem fromBE_eq_sum (bs : List Byte) :
    fromBE bs = ∑ k ∈ Finset.range bs.length, (bs.getD k 0).toNat * 2 ^ (8 * (bs.length - 1 - k)) := by
  induction bs with
  | nil => rfl
  | cons b bs ih =>
    rw [fromBE_cons, List.length_cons, Finset.sum_range_succ', ih, add_comm]
    congr 1
    refine Finset.sum_congr rfl fun k _ => ?_
    rw [List.getD_cons_succ, show bs.length + 1 - 1 - (k + 1) = bs.length - 1 - k by omega]

/-- Lists of one length that stand for one number are equal: the first byte is the quotient by the weight that the
rest stays below. -/
theorem fromBE_injective {as bs : List Byte} (hl : as.length = bs.length) (h : fromBE as = fromBE bs) :
    as = bs := by
  induction as generalizing bs with
  | nil => exact (List.length_eq_zero_iff.mp hl.symm).symm
  | cons a as ih =>
    cases bs with
    | nil => cases hl
    | cons b bs =>
      have hl' : as.length = bs.length := by simpa using hl
      have ha := fromBE_lt as
      have hb := fromBE_lt bs
      rw [hl'] at ha
      rw [fromBE_cons, fromBE_cons, hl'] at h
      have hquot (x y : Nat) (hy : y < 2 ^ (8 * bs.length)) :
          (x * 2 ^ (8 * bs.length) + y) / 2 ^ (8 * bs.length) = x := by
        rw [mul_comm, Nat.mul_add_div (by positivity), Nat.div_eq_of_lt hy, add_zero]
      have hhead : a.toNat = b.toNat := by
        rw [← hquot a.toNat _ ha, h, hquot b.toNat _ hb]
      rw [hhead, Nat.add_left_cancel_iff] at h
      rw [BitVec.eq_of_toNat_eq hhead, ih hl' h]

/-- `BE_n` undoes `fromBE` on `n` bytes, because their number is below `2^(8n)`. -/
theorem beBytes_fromBE (bs : List Byte) :
    beBytes bs.length (BitVec.ofNat (8 * bs.length) (fromBE bs)) = bs := by
  apply fromBE_injective (beBytes_length _ _)
  rw [fromBE_beBytes_full, BitVec.toNat_ofNat, Nat.mod_eq_of_lt (fromBE_lt bs)]

end Sys2Proof.Machine

open Sys2Proof.Machine in
/-- Settles O16, by induction on the number of bytes; the second inverse is the injectivity of `fromBE`. -/
theorem bigEndianBytes : Obligations.BigEndianBytes := by
  intro n
  refine ⟨fun w => ⟨beBytes_length n w, fun k hk => beBytes_getElem? w hk, fromBE_beBytes_full w⟩, ?_⟩
  rintro bs rfl
  exact ⟨fromBE_eq_sum bs, beBytes_fromBE bs⟩

namespace Sys2Proof.Machine

/-! ## Fixed-width operations on a serving stream -/

/-- Every well-formed encode that has a wire image writes it (R47, R100). -/
theorem writes_wireImage {i : Instr} {wire : List Byte} (hd : i.direction = .enc) (hw : i.wellFormed = true)
    (hi : wireImage i = some wire) : Writes i wire := by
  intro s e hs ha
  have hwork : encodeWork i e = sinkWrite wire e := by
    rcases encodeWork_eq hd e with ⟨wire', hi', hwork⟩ | ⟨_, _, hnone, _⟩
    · rw [hwork, Option.some.inj (hi'.symm.trans hi)]
    · rw [hnone] at hi; cases hi
  rw [exec_encode hd hw, State.onEncoder_encoder hs, hwork, sinkWrite_normal ha]
  rfl

/-- A fixed-width decode reads the bytes of a word of its width as the result for that word (R9, R101). -/
theorem reads_beBytes {j : Instr} {m n : Nat} {toResult : BitVec m → Result} (hd : j.direction = .dec)
    (hj : decodeWork j = fixedDecode m n toResult) (hm : m = 8 * n) (hn : n ≠ 0) (w : BitVec m) :
    Reads j (beBytes n w) (toResult w) := by
  subst hm
  intro s d rest hs ha hinp
  have hread : srcRead n d = (.ok (beBytes n w), ⟨d.inp0, rest, d.source.answered⟩) := by
    rw [srcRead_normal hn ha (by simp [hinp]), hinp, List.take_left' (beBytes_length n w),
      List.drop_left' (beBytes_length n w)]
  have hword : BitVec.ofNat (8 * n) (fromBE (beBytes n w)) = w := by
    rw [fromBE_beBytes_full, BitVec.ofNat_toNat, BitVec.setWidth_eq]
  rw [exec_decode hd, State.onDecoder_decoder hs, hj, fixedDecode, hread]
  simp only [Except.map, hword]
  rfl

/-- A signed decode reads the bits of a value in range as that value (R10, R122). -/
theorem reads_signed {j : Instr} {m n : Nat} {v : Int} (hv : inSignedRange m v = true) (hd : j.direction = .dec)
    (hj : decodeWork j = fixedDecode m n fun w => .int (toSigned w)) (hm : m = 8 * n) (hn : n ≠ 0) :
    Reads j (beBytes n (toBits m v)) (.int v) := by
  have h := reads_beBytes hd hj hm hn (toBits m v)
  rwa [toSigned_toBits (by omega) hv] at h

/-- A boolean's wire byte stands for that boolean (R61). -/
@[simp] theorem byteBool_boolByte (v : Bool) : byteBool (boolByte v) = v := by
  cases v <;> decide

/-- A boolean's wire image is its one byte as a field (R61, R69). -/
theorem wireImage_encBool (v : Bool) : wireImage (.encBool v) = some (beBytes 1 (boolByte v)) := by
  cases v <;> decide

/-- `dec.bool` reads a boolean's wire byte as that boolean (R103). -/
theorem reads_bool (v : Bool) : Reads .decBool (beBytes 1 (boolByte v)) (.bool v) := by
  have h : Reads .decBool (beBytes 1 (boolByte v)) (.bool (byteBool (boolByte v))) :=
    reads_beBytes (toResult := fun b => .bool (byteBool b)) rfl rfl rfl one_ne_zero (boolByte v)
  rwa [byteBool_boolByte] at h

end Sys2Proof.Machine

open Sys2Proof Sys2Proof.Machine in
/-- Settles O29: in each type the encode writes the field's bytes, and the decode reads those bytes as the same value. -/
theorem fixedWidthRoundTrip : Obligations.FixedWidthRoundTrip := by
  refine ⟨fun v => ⟨_, writes_wireImage rfl rfl (wireImage_encBool v), reads_bool v⟩,
    fun w => ?u16, fun w => ?char, fun w => ?u32, fun w => ?u64, fun w => ?f32, fun w => ?f64,
    fun v hlo hhi => ?s16, fun v hlo hhi => ?s32, fun v hlo hhi => ?s64⟩
  case u16 | char => exact ⟨_, writes_wireImage rfl rfl rfl, reads_beBytes (n := 2) rfl rfl rfl two_ne_zero w⟩
  case u32 | f32 => exact ⟨_, writes_wireImage rfl rfl rfl, reads_beBytes (n := 4) rfl rfl rfl four_ne_zero w⟩
  case u64 | f64 => exact ⟨_, writes_wireImage rfl rfl rfl, reads_beBytes (n := 8) rfl rfl rfl (by decide) w⟩
  case s16 =>
    have hv : inSignedRange 16 v = true := inSignedRange_iff.mpr (by omega)
    exact ⟨_, writes_wireImage rfl hv rfl, reads_signed hv rfl rfl rfl two_ne_zero⟩
  case s32 =>
    have hv : inSignedRange 32 v = true := inSignedRange_iff.mpr (by omega)
    exact ⟨_, writes_wireImage rfl hv rfl, reads_signed hv rfl rfl rfl four_ne_zero⟩
  case s64 =>
    have hv : inSignedRange 64 v = true := inSignedRange_iff.mpr (by omega)
    exact ⟨_, writes_wireImage rfl hv rfl, reads_signed hv rfl rfl rfl (by decide)⟩

/-! PROOFS. What a step and an operation can do to the machine (10_state.md), as one inversion lemma for each. Settles
O50, O45, O48, O49, O51, O2, O3 and O5. -/

namespace Sys2Proof

/-! ## Ranges -/

theorem inSignedRange_mono {m n : Nat} {v : Int} (hmn : m ≤ n) (h : inSignedRange m v = true) :
    inSignedRange n v = true := by
  rw [inSignedRange_iff] at h ⊢
  have hpow : (2 : Int) ^ (m - 1) ≤ 2 ^ (n - 1) := pow_le_pow_right₀ one_le_two (Nat.sub_le_sub_right hmn 1)
  omega

/-- A signed operand is read off its bit pattern, so it is in range (R68). -/
theorem encodeInstr_wellFormed {t : WireType} {o : Operand} {i : Instr} (h : encodeInstr t o = some i) :
    i.wellFormed = true := by
  cases t <;> obtain ⟨w, _, rfl⟩ := Option.map_eq_some_iff.mp h
  case s16 | s32 | s64 => exact inSignedRange_toSigned w
  all_goals rfl

theorem instrOf_wellFormed {d : Direction} {t : WireType} {o : Operand} {i : Instr} (h : instrOf d t o = some i) :
    i.wellFormed = true := by
  cases d with
  | enc => exact encodeInstr_wellFormed h
  | dec =>
    obtain ⟨_, hi⟩ := Option.ite_none_right_eq_some.mp h
    cases hi
    cases t <;> rfl

theorem decode_wellFormed {r : Request} {i : Instr} (h : decode r = .ok i) : i.wellFormed = true :=
  instrOf_wellFormed (decode_ok h).2

end Sys2Proof

namespace Sys2Proof.Machine

/-! ## The scan of a body, by its bounds -/

/-- A unit in front of a scan that fails leaves its error as it is (R144). -/
theorem consUnit_eq_error {u : Word16} {r : Except Err Text} {e : Err} (h : consUnit u r = .error e) :
    r = .error e := by
  cases r with
  | error _ => exact congrArg _ (Except.error.inj h)
  | ok _ => cases h

/-- One turn of R144's loop: the form at `i` is malformed, or a unit is taken and the scan goes on behind its form. -/
theorem decodeBodyFrom_cons (i : Nat) (b : Byte) (bs : List Byte) :
    (∃ reason, decodeBodyFrom i (b :: bs) = .error (.malformedInput i reason)) ∨
    (∃ u k rest, rest.length + k = bs.length ∧
      decodeBodyFrom i (b :: bs) = consUnit u (decodeBodyFrom (i + (k + 1)) rest)) := by
  cases hb : leadClass b with
  | one => exact .inr ⟨_, 0, bs, rfl, decodeBodyFrom_one hb i bs⟩
  | invalid => exact .inl ⟨_, decodeBodyFrom_invalid hb i bs⟩
  | two =>
    match bs with
    | [] => exact .inl ⟨_, decodeBodyFrom_two_cut hb i⟩
    | b1 :: rest =>
      rw [decodeBodyFrom_two hb]
      split
      · exact .inr ⟨_, 1, rest, rfl, rfl⟩
      · exact .inl ⟨_, rfl⟩
  | three =>
    match bs with
    | [] | [_] => exact .inl ⟨_, decodeBodyFrom_three_cut hb i (by simp)⟩
    | b1 :: b2 :: rest =>
      rw [decodeBodyFrom_three hb]
      split
      · exact .inr ⟨_, 2, rest, rfl, rfl⟩
      · exact .inl ⟨_, rfl⟩

/-- Every unit takes a byte at least (R151). -/
theorem length_le_of_decodeBodyFrom {i : Nat} {bs : List Byte} {t : Text} (h : decodeBodyFrom i bs = .ok t) :
    t.length ≤ bs.length := by
  match bs with
  | [] => cases h; rfl
  | b :: bs =>
    rcases decodeBodyFrom_cons i b bs with ⟨_, hturn⟩ | ⟨u, k, rest, hrest, hturn⟩ <;> rw [hturn] at h
    · cases h
    · obtain ⟨t', ht', rfl⟩ := consUnit_eq_ok h
      have ih := length_le_of_decodeBodyFrom ht'
      simp only [List.length_cons]
      omega
termination_by bs.length
decreasing_by simp only [List.length_cons]; omega

/-- A malformed form starts inside the body (R202). -/
theorem decodeBodyFrom_error {i : Nat} {bs : List Byte} {err : Err} (h : decodeBodyFrom i bs = .error err) :
    ∃ offset reason, err = .malformedInput offset reason ∧ offset < i + bs.length := by
  match bs with
  | [] => cases h
  | b :: bs =>
    rcases decodeBodyFrom_cons i b bs with ⟨reason, hturn⟩ | ⟨u, k, rest, hrest, hturn⟩ <;> rw [hturn] at h
    · cases h
      exact ⟨i, reason, rfl, by simp⟩
    · obtain ⟨offset, reason, herr, hlt⟩ := decodeBodyFrom_error (consUnit_eq_error h)
      exact ⟨offset, reason, herr, by simp only [List.length_cons]; omega⟩
termination_by bs.length
decreasing_by simp only [List.length_cons]; omega

/-! ## What the two reads of a decode give back -/

/-- A read that succeeds gives the `n` bytes at the front (R41). -/
theorem srcRead_ok_length {n : Nat} {d d' : Decoder} {bs : List Byte} (h : srcRead n d = (.ok bs, d')) :
    bs.length = n := by
  rcases srcRead_cases n d with ⟨rfl, hr⟩ | ⟨_, _, hl, hr⟩ | ⟨_, _, _, hr⟩ | ⟨_, _, _, _, hr⟩ <;>
    cases hr.symm.trans h
  · rfl
  · simp [hl]

/-- What a read's error records, when it asks for no more than a text body (R201). -/
theorem srcRead_error_wellFormed {n : Nat} {d d' : Decoder} {err : Err} (hn : n ≤ 65535)
    (h : srcRead n d = (.error err, d')) : err.wellFormed := by
  rcases srcRead_cases n d with ⟨_, hr⟩ | ⟨_, _, _, hr⟩ | ⟨_, _, hl, hr⟩ | ⟨_, _, _, _, hr⟩ <;>
    cases hr.symm.trans h
  · exact ⟨hl, hn⟩
  · trivial

/-- What a Decoder is after a read, whatever its source answered: bytes are lost only from the front (R41 to R44). -/
theorem srcRead_state {n : Nat} {d d' : Decoder} {o : Except Err (List Byte)} (h : srcRead n d = (o, d')) :
    ∃ k, d' = ⟨d.inp0, d.inp.drop k, if n = 0 then d.source else d.source.answered⟩ := by
  rcases srcRead_cases n d with ⟨rfl, hr⟩ | ⟨hn, _, _, hr⟩ | ⟨hn, _, _, hr⟩ | ⟨_, k, hn, _, hr⟩ <;>
    cases hr.symm.trans h
  · exact ⟨0, rfl⟩
  · exact ⟨n, by rw [if_neg hn]⟩
  · exact ⟨d.inp.length, by rw [if_neg hn, List.drop_length]⟩
  · exact ⟨min k n, by rw [if_neg hn]⟩

/-- Everything `dec.text` can do (R150). -/
theorem textDecode_cases (d : Decoder) :
    (∃ err d1, srcRead 2 d = (.error err, d1) ∧ textDecode d = (.error err, d1)) ∨
    (∃ p d1 err d2, srcRead 2 d = (.ok p, d1) ∧ srcRead (fromBE p) d1 = (.error err, d2) ∧
      textDecode d = (.error err, d2)) ∨
    (∃ p d1 body d2, srcRead 2 d = (.ok p, d1) ∧ srcRead (fromBE p) d1 = (.ok body, d2) ∧
      textDecode d = ((decodeBody body).map Result.text, d2)) := by
  match h1 : srcRead 2 d with
  | (.error err, d1) => exact .inl ⟨err, d1, rfl, textDecode_lengthError h1⟩
  | (.ok p, d1) =>
    match h2 : srcRead (fromBE p) d1 with
    | (.error err, d2) => exact .inr (.inl ⟨p, d1, err, d2, rfl, h2, textDecode_bodyError h1 h2⟩)
    | (.ok body, d2) => exact .inr (.inr ⟨p, d1, body, d2, rfl, h2, textDecode_body h1 h2⟩)

/-- The length field says at most 65535 (R62). -/
theorem fromBE_lengthField_le {d d1 : Decoder} {p : List Byte} (h : srcRead 2 d = (.ok p, d1)) :
    fromBE p ≤ 65535 := by
  have hlt := fromBE_lt p
  rw [srcRead_ok_length h] at hlt
  omega

/-- What a Decoder is after both reads of `dec.text`: an empty body makes no second call of the source (D7). -/
theorem srcRead_srcRead_state {n : Nat} {d d1 d2 : Decoder} {o1 o2 : Except Err (List Byte)}
    (h1 : srcRead 2 d = (o1, d1)) (h2 : srcRead n d1 = (o2, d2)) :
    ∃ k source, d2 = ⟨d.inp0, d.inp.drop k, source⟩ ∧
      (source = d.source.answered ∨ source = d.source.answered.answered) := by
  obtain ⟨k1, rfl⟩ := srcRead_state h1
  obtain ⟨k2, rfl⟩ := srcRead_state h2
  refine ⟨k1 + k2, _, by rw [List.drop_drop], ?_⟩
  split
  · exact .inl rfl
  · exact .inr rfl

/-- What a Decoder is after `dec.text`: one or two reads have taken bytes from the front. -/
theorem textDecode_state (d : Decoder) :
    ∃ k source, (textDecode d).2 = ⟨d.inp0, d.inp.drop k, source⟩ ∧
      (source = d.source.answered ∨ source = d.source.answered.answered) := by
  rcases textDecode_cases d with ⟨_, _, h1, ht⟩ | ⟨_, _, _, _, h1, h2, ht⟩ | ⟨_, _, _, _, h1, h2, ht⟩ <;> rw [ht]
  · obtain ⟨k, hs⟩ := srcRead_state h1
    exact ⟨k, _, hs, .inl rfl⟩
  · exact srcRead_srcRead_state h1 h2
  · exact srcRead_srcRead_state h1 h2

/-! ## What a decode does and answers -/

/-- A decode's stream work is `dec.text`, or one fixed-width read whose result is in range (R51, R68). -/
theorem decodeWork_eq {i : Instr} (hd : i.direction = .dec) :
    (i = .decText ∧ decodeWork i = textDecode) ∨
    (∃ (m n : Nat) (toResult : BitVec m → Result), n ≠ 0 ∧ n ≤ 8 ∧ fieldBytes i.wireType = some n ∧
      (∀ w, (toResult w).wellFormed) ∧ decodeWork i = fixedDecode m n toResult) := by
  have hsigned {m : Nat} (hm : m ≤ 64) (w : BitVec m) : (Result.int (toSigned w)).wellFormed :=
    inSignedRange_mono hm (inSignedRange_toSigned w)
  cases i with
  | decText => exact .inl ⟨rfl, rfl⟩
  | decS16 => exact .inr ⟨16, 2, _, by decide, by decide, rfl, hsigned (by decide), rfl⟩
  | decS32 => exact .inr ⟨32, 4, _, by decide, by decide, rfl, hsigned (by decide), rfl⟩
  | decS64 => exact .inr ⟨64, 8, _, by decide, by decide, rfl, hsigned (by decide), rfl⟩
  | decBool => exact .inr ⟨8, 1, fun b => .bool (byteBool b), by decide, by decide, rfl, fun _ => trivial, rfl⟩
  | decU16 | decChar => exact .inr ⟨16, 2, .word16, by decide, by decide, rfl, fun _ => trivial, rfl⟩
  | decU32 | decF32 => exact .inr ⟨32, 4, .word32, by decide, by decide, rfl, fun _ => trivial, rfl⟩
  | decU64 | decF64 => exact .inr ⟨64, 8, .word64, by decide, by decide, rfl, fun _ => trivial, rfl⟩
  | encBool | encU16 | encS16 | encChar | encU32 | encS32 | encU64 | encS64 | encF32 | encF64 | encText => cases hd

/-- What a Decoder is after a decode, whatever its source answered (R23). -/
theorem decodeWork_state {i : Instr} (hd : i.direction = .dec) (d : Decoder) :
    ∃ k source, (decodeWork i d).2 = ⟨d.inp0, d.inp.drop k, source⟩ ∧
      (source = d.source.answered ∨ (i = .decText ∧ source = d.source.answered.answered)) := by
  rcases decodeWork_eq hd with ⟨rfl, hwork⟩ | ⟨m, n, _, hn, _, _, _, hwork⟩ <;> rw [hwork]
  · obtain ⟨k, source, hs, hsource⟩ := textDecode_state d
    exact ⟨k, source, hs, hsource.imp_right fun h => ⟨rfl, h⟩⟩
  · obtain ⟨k, hs⟩ := srcRead_state (d := d) (n := n) rfl
    exact ⟨k, _, hs.trans (by rw [if_neg hn]), .inl rfl⟩

/-- A fixed-width decode's response is one the block can give. -/
theorem fixedDecode_answer_wellFormed {m n : Nat} {toResult : BitVec m → Result} (hn : n ≤ 65535)
    (hr : ∀ w, (toResult w).wellFormed) (d : Decoder) :
    (answerOf ((fixedDecode m n toResult d).1.map some)).wellFormed := by
  rw [fixedDecode]
  match h : srcRead n d with
  | (.ok _, _) => exact hr _
  | (.error _, _) => exact srcRead_error_wellFormed hn h

/-- The response to a body read whole is one the block can give: the body's length bounds the text and the offset. -/
theorem decodeBody_answer_wellFormed {body : List Byte} (hl : body.length ≤ 65535) :
    (answerOf (((decodeBody body).map Result.text).map some)).wellFormed := by
  match h : decodeBody body with
  | .ok _ => exact (length_le_of_decodeBodyFrom h).trans hl
  | .error _ =>
    obtain ⟨offset, _, rfl, hlt⟩ := decodeBodyFrom_error h
    exact show offset < 65535 by omega

/-- The response of `dec.text` is one the block can give. -/
theorem textDecode_answer_wellFormed (d : Decoder) : (answerOf ((textDecode d).1.map some)).wellFormed := by
  rcases textDecode_cases d with ⟨_, _, h1, ht⟩ | ⟨p, _, _, _, h1, h2, ht⟩ | ⟨p, _, _, _, h1, h2, ht⟩ <;> rw [ht]
  · exact srcRead_error_wellFormed (by decide) h1
  · exact srcRead_error_wellFormed (fromBE_lengthField_le h1) h2
  · exact decodeBody_answer_wellFormed ((srcRead_ok_length h2).le.trans (fromBE_lengthField_le h1))

theorem decodeWork_answer_wellFormed {i : Instr} (hd : i.direction = .dec) (d : Decoder) :
    (answerOf ((decodeWork i d).1.map some)).wellFormed := by
  rcases decodeWork_eq hd with ⟨_, hwork⟩ | ⟨_, _, _, _, hn, _, hr, hwork⟩ <;> rw [hwork]
  · exact textDecode_answer_wellFormed d
  · exact fixedDecode_answer_wellFormed (hn.trans (by decide)) hr d

theorem encodeWork_answer_wellFormed {i : Instr} (hd : i.direction = .enc) (e : Encoder) :
    (answerOf ((encodeWork i e).1.map fun _ => none)).wellFormed := by
  rcases encodeWork_eq hd e with ⟨wire, _, hwork⟩ | ⟨_, _, _, hlong, hwork⟩ <;> rw [hwork]
  · rcases sinkWrite_cases wire e with ⟨_, hw⟩ | ⟨_, _, _, hw⟩ <;> rw [hw] <;> trivial
  · exact hlong

/-- What an Encoder is after an encode, whatever its sink answered (R22). -/
theorem encodeWork_state {i : Instr} (hd : i.direction = .enc) (e : Encoder) :
    (wireImage i = none → (encodeWork i e).2 = e) ∧
    (∀ wire, wireImage i = some wire → (encodeWork i e).2 =
      ⟨e.out ++ wire.take (acceptedBytes wire.length e.sink.sinkAnswer), e.sink.answered⟩) := by
  rcases encodeWork_eq hd e with ⟨wire, hi, hwork⟩ | ⟨_, _, hi, _, hwork⟩ <;> simp [hi, hwork, sinkWrite_state]

/-! ## How an instance evolves (R22, R23, R250) -/

theorem Instance.evolvesTo_refl (x : Instance) : x.evolvesTo x := by
  cases x with
  | encoder e => exact ⟨List.prefix_refl _, rfl⟩
  | decoder d => exact ⟨List.suffix_refl _, rfl, rfl⟩

theorem Instance.evolvesTo_stream_id {x y : Instance} (h : x.evolvesTo y) : y.stream.id = x.stream.id := by
  match x, y, h with
  | .encoder _, .encoder _, ⟨_, hid⟩ => exact hid
  | .decoder _, .decoder _, ⟨_, _, hid⟩ => exact hid

/-- What evolves to a Decoder is a Decoder with the same `inp0` and no less to come. -/
theorem Instance.evolvesTo_decoder {x : Instance} {d' : Decoder} (h : x.evolvesTo (.decoder d')) :
    ∃ d, x = .decoder d ∧ d'.inp <:+ d.inp ∧ d'.inp0 = d.inp0 := by
  match x, h with
  | .decoder d, ⟨hinp, hinp0, _⟩ => exact ⟨d, rfl, hinp, hinp0⟩

theorem encodeWork_evolvesTo {i : Instr} (hd : i.direction = .enc) (e : Encoder) :
    Instance.evolvesTo (.encoder e) (.encoder (encodeWork i e).2) := by
  obtain ⟨hnone, hsome⟩ := encodeWork_state hd e
  match hi : wireImage i with
  | none => rw [hnone hi]; exact Instance.evolvesTo_refl _
  | some wire => rw [hsome wire hi]; exact ⟨List.prefix_append _ _, rfl⟩

theorem decodeWork_evolvesTo {i : Instr} (hd : i.direction = .dec) (d : Decoder) :
    Instance.evolvesTo (.decoder d) (.decoder (decodeWork i d).2) := by
  obtain ⟨k, source, hs, rfl | ⟨_, rfl⟩⟩ := decodeWork_state hd d <;> rw [hs] <;>
    exact ⟨List.drop_suffix _ _, rfl, rfl⟩

/-! ## Running an instruction on an instance -/

/-- What an instruction makes of an instance, and its response. `exec_eq_run` ties it to the model. -/
def Instance.run (i : Instr) (x : Instance) : Instance × Response :=
  match i.direction, x with
  | .enc, .encoder e => (.encoder (encodeWork i e).2, answerOf ((encodeWork i e).1.map fun _ => none))
  | .dec, .decoder d => (.decoder (decodeWork i d).2, answerOf ((decodeWork i d).1.map some))
  | .enc, .decoder _ | .dec, .encoder _ => (x, .error (.illegalOperation i.opcode))

section
variable {i : Instr}

theorem Instance.run_encode_encoder (hd : i.direction = .enc) (e : Encoder) :
    Instance.run i (.encoder e) =
      (.encoder (encodeWork i e).2, answerOf ((encodeWork i e).1.map fun _ => none)) := by
  simp only [Instance.run, hd]

theorem Instance.run_encode_decoder (hd : i.direction = .enc) (d : Decoder) :
    Instance.run i (.decoder d) = (.decoder d, .error (.illegalOperation i.opcode)) := by
  simp only [Instance.run, hd]

theorem Instance.run_decode_decoder (hd : i.direction = .dec) (d : Decoder) :
    Instance.run i (.decoder d) = (.decoder (decodeWork i d).2, answerOf ((decodeWork i d).1.map some)) := by
  simp only [Instance.run, hd]

theorem Instance.run_decode_encoder (hd : i.direction = .dec) (e : Encoder) :
    Instance.run i (.encoder e) = (.encoder e, .error (.illegalOperation i.opcode)) := by
  simp only [Instance.run, hd]

end

/-- Whatever runs, the instance only moves forward and its response is one the block can give. -/
theorem Instance.run_evolvesTo_wellFormed (i : Instr) (x : Instance) :
    x.evolvesTo (x.run i).1 ∧ (x.run i).2.wellFormed := by
  match hd : i.direction, x with
  | .enc, .encoder e =>
    rw [Instance.run_encode_encoder hd]
    exact ⟨encodeWork_evolvesTo hd e, encodeWork_answer_wellFormed hd e⟩
  | .enc, .decoder d =>
    rw [Instance.run_encode_decoder hd]
    exact ⟨Instance.evolvesTo_refl _, trivial⟩
  | .dec, .decoder d =>
    rw [Instance.run_decode_decoder hd]
    exact ⟨decodeWork_evolvesTo hd d, decodeWork_answer_wellFormed hd d⟩
  | .dec, .encoder e =>
    rw [Instance.run_decode_encoder hd]
    exact ⟨Instance.evolvesTo_refl _, trivial⟩

/-- Every well-formed instruction on an attached instance is one response of it (R29). -/
theorem exec_eq_run {i : Instr} {s : State} {x : Instance} (hw : i.wellFormed = true) (hx : s.addressed = some x) :
    exec i s = .next (s.afterReply (x.run i).1 (x.run i).2) := by
  match hd : i.direction, x with
  | .enc, .encoder e => rw [exec_encode hd hw, State.onEncoder_encoder hx, Instance.run_encode_encoder hd]
  | .enc, .decoder d => rw [exec_encode hd hw, State.onEncoder_decoder hx, Instance.run_encode_decoder hd]
  | .dec, .decoder d => rw [exec_decode hd, State.onDecoder_decoder hx, Instance.run_decode_decoder hd]
  | .dec, .encoder e => rw [exec_decode hd, State.onDecoder_encoder hx, Instance.run_decode_encoder hd]

/-- A well-formed instruction with no instance to run on stops the machine (log entry 6). -/
theorem exec_noInstance {i : Instr} {s : State} (hw : i.wellFormed = true) (hx : s.addressed = none) :
    exec i s = .fault .noInstance := by
  cases hd : i.direction with
  | enc => rw [exec_encode hd hw, State.onEncoder_none hx]
  | dec => rw [exec_decode hd, State.onDecoder_none hx]

/-- If an instruction answers a next state, it was well formed and ran on the addressed instance. -/
theorem exec_next {i : Instr} {s t : State} (h : exec i s = .next t) :
    ∃ x, i.wellFormed = true ∧ s.addressed = some x ∧ t = s.afterReply (x.run i).1 (x.run i).2 := by
  have hw := exec_next_wellFormed h
  match hx : s.addressed with
  | none => rw [exec_noInstance hw hx] at h; cases h
  | some x => rw [exec_eq_run hw hx] at h; cases h; exact ⟨x, hw, rfl, rfl⟩

/-! ## One step for each action of the host (R214) -/

theorem step_idle {s : State} (h : s.host = []) : step s = .next s := by
  simp only [step, fetch, h]

section
variable {s : State} {rest : List HostAction}

theorem step_attachEncoder {sch : List StreamAnswer} (h : s.host = .attachEncoder sch :: rest) :
    step s = .next (State.attachEncoder ⟨s.instances, rest, s.target, s.replies⟩ sch) := by
  simp only [step, fetch, h]

theorem step_attachDecoder {inp0 : List Byte} {sch : List StreamAnswer}
    (h : s.host = .attachDecoder inp0 sch :: rest) :
    step s = .next (State.attachDecoder ⟨s.instances, rest, s.target, s.replies⟩ inp0 sch) := by
  simp only [step, fetch, h]

theorem step_overlap {n : Nat} {r₁ r₂ : Request} (h : s.host = .overlap n r₁ r₂ :: rest) :
    step s = .refused .overlappingRequests := by
  simp only [step, fetch, h]

variable {n : Nat} {r : Request} (h : s.host = .request n r :: rest)
include h

theorem step_request_noInstance (hx : s.instances[n]? = none) : step s = .fault .noInstance := by
  simp only [step, fetch, h, issue, State.addressed, hx]

variable {x : Instance} (hx : s.instances[n]? = some x)
include hx

/-- A request that names an instruction runs it (R21, R52). -/
theorem step_request_ok {i : Instr} (hi : decode r = .ok i) :
    step s = exec i ⟨s.instances, rest, n, s.replies⟩ := by
  simp only [step, fetch, h, issue, State.addressed, hx, hi]

/-- A reserved opcode is an IllegalOperation (R70). -/
theorem step_request_reserved (hr : decode r = .error (.reservedOpcode r.opcode)) :
    step s = .next (State.afterReply ⟨s.instances, rest, n, s.replies⟩ x (.error (.illegalOperation r.opcode))) := by
  simp only [step, fetch, h, issue, State.addressed, hx, hr, State.raise_eq_afterReply]

/-- An opcode of the other direction is an IllegalOperation, whatever its operand (R71). -/
theorem step_request_misdirected (hr : decode r = .error (.operandMismatch r.opcode))
    (hd : directionOf r.opcode ≠ x.direction) :
    step s = .next (State.afterReply ⟨s.instances, rest, n, s.replies⟩ x (.error (.illegalOperation r.opcode))) := by
  simp only [step, fetch, h, issue, State.addressed, hx, hr, if_neg hd, State.raise_eq_afterReply]

/-- An operand the opcode does not take is refused (log entry 7). -/
theorem step_request_operandMismatch (hr : decode r = .error (.operandMismatch r.opcode))
    (hd : directionOf r.opcode = x.direction) : step s = .refused (.operandMismatch r.opcode) := by
  simp only [step, fetch, h, issue, State.addressed, hx, hr, if_pos hd]

/-- A request to an attached instance that the machine goes on from: the instruction it names ran, or it was answered
IllegalOperation. -/
theorem step_request_next {t : State} (ht : step s = .next t) :
    (∃ i, decode r = .ok i ∧ i.wellFormed = true ∧
      t = State.afterReply ⟨s.instances, rest, n, s.replies⟩ (x.run i).1 (x.run i).2) ∨
    (t = State.afterReply ⟨s.instances, rest, n, s.replies⟩ x (.error (.illegalOperation r.opcode))) := by
  match hr : decode r with
  | .ok i =>
    have hw := decode_wellFormed hr
    have hx' : State.addressed ⟨s.instances, rest, n, s.replies⟩ = some x := hx
    rw [step_request_ok h hx hr, exec_eq_run hw hx'] at ht
    cases ht
    exact .inl ⟨i, rfl, hw, rfl⟩
  | .error err =>
    rcases decode_error hr with ⟨rfl, _⟩ | ⟨_, _, rfl, _⟩
    · rw [step_request_reserved h hx hr] at ht
      cases ht
      exact .inr rfl
    · by_cases hd : directionOf r.opcode = x.direction
      · rw [step_request_operandMismatch h hx hr hd] at ht
        cases ht
      · rw [step_request_misdirected h hx hr hd] at ht
        cases ht
        exact .inr rfl

end

/-- Everything a step that goes on can do: nothing, attach an instance, or have one attached instance give one
response. -/
theorem step_next {s t : State} (ht : step s = .next t) :
    (s.host = [] ∧ t = s) ∨
    (∃ sch rest, s.host = .attachEncoder sch :: rest ∧
      t = State.attachEncoder ⟨s.instances, rest, s.target, s.replies⟩ sch) ∨
    (∃ inp0 sch rest, s.host = .attachDecoder inp0 sch :: rest ∧
      t = State.attachDecoder ⟨s.instances, rest, s.target, s.replies⟩ inp0 sch) ∨
    (∃ n r rest x y response, s.host = .request n r :: rest ∧ s.instances[n]? = some x ∧ x.evolvesTo y ∧
      response.wellFormed ∧ t = State.afterReply ⟨s.instances, rest, n, s.replies⟩ y response) := by
  match h : s.host with
  | [] => rw [step_idle h] at ht; cases ht; exact .inl ⟨rfl, rfl⟩
  | .attachEncoder sch :: rest =>
    rw [step_attachEncoder h] at ht; cases ht; exact .inr (.inl ⟨sch, rest, rfl, rfl⟩)
  | .attachDecoder inp0 sch :: rest =>
    rw [step_attachDecoder h] at ht; cases ht; exact .inr (.inr (.inl ⟨inp0, sch, rest, rfl, rfl⟩))
  | .overlap n r₁ r₂ :: rest => rw [step_overlap h] at ht; cases ht
  | .request n r :: rest =>
    match hx : s.instances[n]? with
    | none => rw [step_request_noInstance h hx] at ht; cases ht
    | some x =>
      refine .inr (.inr (.inr ?_))
      rcases step_request_next h hx ht with ⟨i, _, _, rfl⟩ | rfl
      · obtain ⟨hevolves, hresponse⟩ := x.run_evolvesTo_wellFormed i
        exact ⟨n, r, rest, x, _, _, rfl, hx, hevolves, hresponse, rfl⟩
      · exact ⟨n, r, rest, x, x, .error (.illegalOperation r.opcode), rfl, hx, x.evolvesTo_refl, trivial, rfl⟩

/-! ## The invariant -/

namespace State.Inv

theorem reset : State.reset.Inv where
  tails _ _ h := by cases h
  streams _ _ h := by cases h
  replies _ h := by cases h

/-- The invariant does not speak of the host's actions nor of the target. -/
theorem withHost {s : State} (h : s.Inv) (host : List HostAction) (target : Nat) :
    State.Inv ⟨s.instances, host, target, s.replies⟩ :=
  ⟨h.tails, h.streams, h.replies⟩

/-- A new instance may be attached on the stream of its own number, a Decoder with nothing consumed. -/
theorem append {s : State} {x : Instance} (h : s.Inv) (hid : x.stream.id = s.instances.length)
    (htail : ∀ d, x = .decoder d → d.inp <:+ d.inp0) :
    State.Inv ⟨s.instances ++ [x], s.host, s.target, s.replies⟩ := by
  have hold {n : Nat} {y : Instance} (hy : (s.instances ++ [x])[n]? = some y) :
      s.instances[n]? = some y ∨ (n = s.instances.length ∧ x = y) := by
    grind
  refine ⟨fun n d hd => ?_, fun n y hy => ?_, fun p hp => ?_⟩
  · rcases hold hd with hd | ⟨_, rfl⟩
    · exact h.tails n d hd
    · exact htail d rfl
  · rcases hold hy with hy | ⟨rfl, rfl⟩
    · exact h.streams n y hy
    · exact hid
  · obtain ⟨hinst, hresponse⟩ := h.replies p hp
    exact ⟨by simp only [List.length_append]; omega, hresponse⟩

/-- An instance may evolve and give a response the block can give. -/
theorem afterReply {s : State} {x y : Instance} {r : Response} (h : s.Inv) (hx : s.addressed = some x)
    (hevolves : x.evolvesTo y) (hr : r.wellFormed) : (s.afterReply y r).Inv := by
  have hlt : s.target < s.instances.length := (List.getElem?_eq_some_iff.mp hx).1
  have hold {n : Nat} {z : Instance} (hz : (s.instances.set s.target y)[n]? = some z) :
      s.instances[n]? = some z ∨ (n = s.target ∧ y = z) := by
    grind
  refine ⟨fun n d hd => ?_, fun n z hz => ?_, fun p hp => ?_⟩
  · rcases hold hd with hd | ⟨_, rfl⟩
    · exact h.tails n d hd
    · obtain ⟨d', rfl, hinp, hinp0⟩ := Instance.evolvesTo_decoder hevolves
      rw [hinp0]
      exact hinp.trans (h.tails _ _ hx)
  · rcases hold hz with hz | ⟨rfl, rfl⟩
    · exact h.streams n z hz
    · exact (Instance.evolvesTo_stream_id hevolves).trans (h.streams _ _ hx)
  · rw [State.afterReply_instances, List.length_set]
    rcases List.mem_append.mp hp with hp | hp
    · exact h.replies p hp
    · rw [List.mem_singleton.mp hp]
      exact ⟨hlt, hr⟩

end State.Inv

/-! ## What stays over a step -/

/-- No instance goes away when one is attached. -/
theorem evolvesTo_of_append {l l' : List Instance} {n : Nat} {x : Instance} (hx : l[n]? = some x) :
    ∃ y, (l ++ l')[n]? = some y ∧ x.evolvesTo y :=
  ⟨x, by rw [List.getElem?_append_left (List.getElem?_eq_some_iff.mp hx).1, hx], x.evolvesTo_refl⟩

/-- Every instance has evolved, or stayed, when the addressed one has evolved and answered. -/
theorem State.afterReply_evolvesTo {s : State} {x y z : Instance} {r : Response} {n : Nat}
    (hx : s.addressed = some x) (hevolves : x.evolvesTo y) (hz : s.instances[n]? = some z) :
    ∃ z', (s.afterReply y r).instances[n]? = some z' ∧ z.evolvesTo z' := by
  by_cases hn : n = s.target
  · subst hn
    cases hz.symm.trans hx
    exact ⟨y, State.afterReply_addressed hx, hevolves⟩
  · exact ⟨z, (State.afterReply_other hn).trans hz, z.evolvesTo_refl⟩

end Sys2Proof.Machine

section
open Sys2Proof Sys2Proof.Machine

/-- Settles O50: an attach adds an instance in its reset state, and a response comes from an instance that has only
moved forward. -/
theorem stepKeepsInvariant : Obligations.StepKeepsInvariant := by
  intro s t hs ht
  rcases step_next ht with ⟨_, rfl⟩ | ⟨sch, rest, _, rfl⟩ | ⟨inp0, sch, rest, _, rfl⟩ |
    ⟨n, r, rest, x, y, response, _, hx, hevolves, hresponse, rfl⟩
  · exact hs
  · exact (hs.withHost rest s.target).append rfl fun _ h => by cases h
  · exact (hs.withHost rest s.target).append rfl fun _ h => by cases h; exact List.suffix_refl _
  · exact (hs.withHost rest n).afterReply hx hevolves hresponse

/-- Settles O45: running an instruction on an instance always gives a response, and the instance only moves forward. -/
theorem everyInstructionIsAnswered : Obligations.EveryInstructionIsAnswered := by
  intro i s x hw hx
  obtain ⟨hevolves, _⟩ := x.run_evolvesTo_wellFormed i
  exact ⟨_, (x.run i).1, (x.run i).2, exec_eq_run hw hx, rfl, State.afterReply_addressed hx, hevolves⟩

/-- Settles O48: one response of the addressed instance, an Encoder changed by one sink write of the wire image. -/
theorem encodeFrame : Obligations.EncodeFrame := by
  intro i s t hd h
  obtain ⟨x, _, hx, rfl⟩ := exec_next h
  have haddressed := State.afterReply_addressed (x := (x.run i).1) (r := (x.run i).2) hx
  refine ⟨rfl, rfl, List.length_set, ⟨_, rfl⟩, fun n hn => State.afterReply_other hn, fun d hdec => ?_,
    fun e henc => ?_⟩
  · cases hx.symm.trans hdec
    rw [haddressed, Instance.run_encode_decoder hd]
  · cases hx.symm.trans henc
    obtain ⟨hnone, hsome⟩ := encodeWork_state hd e
    rw [haddressed, Instance.run_encode_encoder hd]
    exact ⟨fun hi => by rw [hnone hi], fun wire hi => by rw [hsome wire hi]⟩

/-- Settles O49: one response of the addressed instance, a Decoder changed by the reads of its stream work. -/
theorem decodeFrame : Obligations.DecodeFrame := by
  intro i s t hd h
  obtain ⟨x, _, hx, rfl⟩ := exec_next h
  have haddressed := State.afterReply_addressed (x := (x.run i).1) (r := (x.run i).2) hx
  refine ⟨rfl, rfl, List.length_set, ⟨_, rfl⟩, fun n hn => State.afterReply_other hn, fun e henc => ?_,
    fun d hdec => ?_⟩
  · cases hx.symm.trans henc
    rw [haddressed, Instance.run_decode_encoder hd]
  · cases hx.symm.trans hdec
    obtain ⟨k, source, hs, hsource⟩ := decodeWork_state hd d
    rw [haddressed, Instance.run_decode_decoder hd, hs]
    exact ⟨_, source, rfl, List.drop_suffix _ _, hsource⟩

/-- Settles O51: an attach puts an instance behind the others, a response puts an evolved one in its place. -/
theorem streamsOnlyAdvance : Obligations.StreamsOnlyAdvance := by
  intro s t ht
  rcases step_next ht with ⟨_, rfl⟩ | ⟨sch, rest, _, rfl⟩ | ⟨inp0, sch, rest, _, rfl⟩ |
    ⟨n, r, rest, x, y, response, _, hx, hevolves, _, rfl⟩
  · exact ⟨fun _ x hx => ⟨x, hx, x.evolvesTo_refl⟩, List.prefix_refl _⟩
  · exact ⟨fun _ _ hx => evolvesTo_of_append hx, List.prefix_refl _⟩
  · exact ⟨fun _ _ hx => evolvesTo_of_append hx, List.prefix_refl _⟩
  · exact ⟨fun _ _ hz => State.afterReply_evolvesTo hx hevolves hz, List.prefix_append _ _⟩

/-- Settles O2: at reset there is no instance and no response. -/
theorem resetMeetsInvariant : Obligations.ResetMeetsInvariant :=
  State.Inv.reset

/-- Settles O3: a fetch with no action to take is idle. -/
theorem idleStepChangesNothing : Obligations.IdleStepChangesNothing :=
  fun _ => step_idle

/-- Settles O5: what decodes is well formed, and the request runs it. -/
theorem stepRunsDecodedRequest : Obligations.StepRunsDecodedRequest := by
  intro s n r rest i h hn hi
  exact ⟨step_request_ok h (List.getElem?_eq_getElem hn) hi, decode_wellFormed hi⟩

end

/-! PROOFS. The stream primitives and the order of bytes in a stream (20_memory.md R41 to R49). Settles O19, O6, O17,
O18 and O30. -/

namespace Sys2Proof.Machine

/-! ## Neighbouring fields in a stream (R48, R49) -/

/-- The low bytes of two words put together are those of the lower one. -/
theorem beBytes_append_low {w m n : Nat} (hi : BitVec w) (lo : BitVec m) (hn : 8 * n ≤ m) :
    beBytes n (hi ++ lo) = beBytes n lo := by
  induction n with
  | zero => rfl
  | succ n ih =>
    rw [beBytes_succ, beBytes_succ, BitVec.extractLsb'_append_eq_of_add_le (by omega), ih (by omega)]

/-- The field of two words put together is the field of the upper one and behind it that of the lower one. -/
theorem beBytes_append {w : Nat} (m n : Nat) (hi : BitVec w) (lo : BitVec (8 * n)) :
    beBytes (m + n) (hi ++ lo) = beBytes m hi ++ beBytes n lo := by
  induction m with
  | zero => rw [Nat.zero_add, beBytes_append_low hi lo le_rfl, beBytes_zero, List.nil_append]
  | succ m ih =>
    have hbyte : (hi ++ lo).extractLsb' (8 * (m + n)) 8 = hi.extractLsb' (8 * m) 8 := by
      rw [BitVec.extractLsb'_append_eq_of_le (by omega), show 8 * (m + n) - 8 * n = 8 * m by omega]
    rw [Nat.succ_add, beBytes_succ, beBytes_succ, hbyte, ih, List.cons_append]

/-- R60's table and `BE_2` give the same bytes. -/
theorem beBytes_two (w : Word16) : beBytes 2 w = bytes16 w := rfl

theorem writes_encU16 (w : Word16) : Writes (.encU16 w) (bytes16 w) :=
  beBytes_two w ▸ writes_wireImage rfl rfl rfl

theorem reads_decU16 (w : Word16) : Reads .decU16 (bytes16 w) (.word16 w) :=
  beBytes_two w ▸ reads_beBytes (n := 2) rfl rfl rfl two_ne_zero w

end Sys2Proof.Machine

section
open Sys2Proof Sys2Proof.Machine

/-- Settles O19: an encode's stream work is one sink write of its wire image, or none. -/
theorem oneWritePerEncode : Obligations.OneWritePerEncode := by
  intro i s e hw hd hs
  obtain ⟨hnone, hsome⟩ := encodeWork_state hd e
  refine ⟨_, (encodeWork i e).2, exec_eq_run hw hs, ?_, fun wire hi => ?_, hnone⟩
  · rw [State.afterReply_addressed hs, Instance.run_encode_encoder hd]
  · rw [hsome wire hi]
    exact ⟨rfl, rfl⟩

/-- Settles O6: the fetch refuses the action, so the machine has no step for it. -/
theorem overlapIsRefused : Obligations.OverlapIsRefused :=
  fun _ _ _ _ _ => step_overlap

/-- Settles O17, answer by answer; bytes past the end of `inp` cannot be dropped, so cutting a draw to `n` cuts it to
`|inp|` too. -/
theorem sourceReads : Obligations.SourceReads := by
  intro n d
  refine ⟨fun hn ha hl => srcRead_normal (by omega) ha hl, fun _ ha hl => srcRead_short ha hl,
    fun e k hn ha => ?_, srcRead_zero d⟩
  rw [srcRead_fail (by omega) ha, ← Nat.min_def, ← min_assoc, ← List.drop_eq_drop_min]

/-- Settles O18, answer by answer; no more than all of `bs` can be appended, so an uncut draw does the same. -/
theorem sinkWrites : Obligations.SinkWrites := by
  intro bs e _
  refine ⟨sinkWrite_normal, fun err k ha => ?_⟩
  rw [sinkWrite_fail ha, ← Nat.min_def, ← List.take_eq_take_min]

/-- Settles O30: the bytes of the two halves, one behind the other, are those of the word they make. -/
theorem mixedWidths : Obligations.MixedWidths := by
  intro hi lo
  have hbytes : beBytes 4 (hi ++ lo) = bytes16 hi ++ bytes16 lo := by
    rw [← beBytes_two, ← beBytes_two]
    exact beBytes_append 2 2 hi lo
  have hwrites : Writes (.encU32 (hi ++ lo)) (beBytes 4 (hi ++ lo)) := writes_wireImage rfl rfl rfl
  have hreads : Reads .decU32 (beBytes 4 (hi ++ lo)) (.word32 (hi ++ lo)) :=
    reads_beBytes (n := 4) rfl rfl rfl four_ne_zero (hi ++ lo)
  rw [hbytes] at hwrites hreads
  exact ⟨writes_encU16 hi, writes_encU16 lo, hwrites, hreads, reads_decU16 hi, reads_decU16 lo⟩

end

/-! PROOFS. The request format and its decoder and encoder (30_encoding.md R67 to R71). Settles O11, O12, O13, O14, O8,
O9 and O10. -/

namespace Sys2Proof

/-! ## The opcode byte (R67, R68, R70) -/

/-- A type stands in the table at the place of its code. -/
theorem WireType.eq_code_of_getElem?_all {n : Nat} {t : WireType} (h : WireType.all[n]? = some t) : n = t.code := by
  have hcodes : ∀ k : Fin 11, k.val = WireType.all[k].code := by decide
  obtain ⟨hn, rfl⟩ := List.getElem?_eq_some_iff.mp h
  exact hcodes ⟨n, hn⟩

/-- An opcode byte is its D, Z and T fields, each at its weight. -/
theorem opcode_toNat_eq_fields (b : Byte) :
    b.toNat = (directionOf b).bit * 128 + (b.extractLsb' 4 3).toNat * 16 + (b.extractLsb' 0 4).toNat := by
  have hD : (directionOf b).bit = b.toNat / 128 := by
    have := b.isLt
    simp only [directionOf, BitVec.getLsbD, Nat.testBit_eq_decide_div_mod_eq, decide_eq_true_eq]
    split <;> simp only [Direction.bit] <;> omega
  have hZ : (b.extractLsb' 4 3).toNat = b.toNat / 16 % 8 := by simp [Nat.shiftRight_eq_div_pow]
  have hT : (b.extractLsb' 0 4).toNat = b.toNat % 16 := by simp
  omega

/-- An opcode byte is reserved exactly when Z is not 000 or T is no type's code (R70). -/
theorem decodeOpcode_eq_none_iff {b : Byte} :
    decodeOpcode b = none ↔ b.extractLsb' 4 3 ≠ 0 ∨ 0xB ≤ (b.extractLsb' 0 4).toNat := by
  have hlen : WireType.all.length = 0xB := rfl
  rw [decodeOpcode, ite_eq_right_iff, Option.map_eq_none_iff, List.getElem?_eq_none_iff, hlen, imp_iff_not_or]

/-- Only an operation's own opcode byte names it. -/
theorem opcodeOf_of_decodeOpcode {b : Byte} {d : Direction} {t : WireType} (h : decodeOpcode b = some (d, t)) :
    opcodeOf d t = b := by
  unfold decodeOpcode at h
  obtain ⟨hZ, h⟩ := Option.ite_none_right_eq_some.mp h
  obtain ⟨_, hT, heq⟩ := Option.map_eq_some_iff.mp h
  cases heq
  have hb : b.toNat = (directionOf b).bit * 128 + t.code := by
    simp [opcode_toNat_eq_fields b, hZ, WireType.eq_code_of_getElem?_all hT]
  rw [opcodeOf, ← hb, BitVec.ofNat_toNat, BitVec.setWidth_eq]

/-! ## The typed operand (R68, R69) -/

theorem Operand.bool?_eq_some {o : Operand} {v : Bool} (h : o.bool? = some v) : o = .bool v := by
  cases o <;> cases h; rfl

theorem Operand.word16?_eq_some {o : Operand} {w : Word16} (h : o.word16? = some w) : o = .word16 w := by
  cases o <;> cases h; rfl

theorem Operand.word32?_eq_some {o : Operand} {w : Word32} (h : o.word32? = some w) : o = .word32 w := by
  cases o <;> cases h; rfl

theorem Operand.word64?_eq_some {o : Operand} {w : Word64} (h : o.word64? = some w) : o = .word64 w := by
  cases o <;> cases h; rfl

theorem Operand.text?_eq_some {o : Operand} {t : Text} (h : o.text? = some t) : o = .text t := by
  cases o <;> cases h; rfl

/-- The operand an instruction was read from is the one its request carries; a signed one by way of its bits. -/
theorem operand_of_encodeInstr {t : WireType} {o : Operand} {i : Instr} (h : encodeInstr t o = some i) :
    i.operand = o := by
  cases t <;> obtain ⟨w, ho, rfl⟩ := Option.map_eq_some_iff.mp h
  case bool => exact (Operand.bool?_eq_some ho).symm
  case text => exact (Operand.text?_eq_some ho).symm
  case u16 | char => exact (Operand.word16?_eq_some ho).symm
  case u32 | f32 => exact (Operand.word32?_eq_some ho).symm
  case u64 | f64 => exact (Operand.word64?_eq_some ho).symm
  case s16 => simp [Instr.operand, Operand.word16?_eq_some ho]
  case s32 => simp [Instr.operand, Operand.word32?_eq_some ho]
  case s64 => simp [Instr.operand, Operand.word64?_eq_some ho]

theorem operand_of_instrOf {d : Direction} {t : WireType} {o : Operand} {i : Instr} (h : instrOf d t o = some i) :
    i.operand = o := by
  cases d with
  | enc => exact operand_of_encodeInstr h
  | dec =>
    obtain ⟨rfl, hi⟩ := Option.ite_none_right_eq_some.mp h
    cases hi
    cases t <;> rfl

/-- A well-formed instruction is read back from its operand: a signed value in range from its bits. -/
theorem instrOf_operand {i : Instr} (hw : i.wellFormed = true) :
    instrOf i.direction i.wireType i.operand = some i := by
  cases i
  case encS16 | encS32 | encS64 => exact congrArg (some ∘ _) (toSigned_toBits (by decide) hw)
  all_goals rfl

/-! ## Requests -/

theorem decode_encode {i : Instr} (hw : i.wellFormed = true) : decode (encode i) = .ok i := by
  simp [decode, encode, Instr.opcode, instrOf_operand hw]

theorem encode_of_decode {r : Request} {i : Instr} (h : decode r = .ok i) : encode i = r := by
  obtain ⟨hop, hinstr⟩ := decode_ok h
  rw [encode, Instr.opcode, opcodeOf_of_decodeOpcode hop, operand_of_instrOf hinstr]

theorem decode_reserved {r : Request} (h : decodeOpcode r.opcode = none) :
    decode r = .error (.reservedOpcode r.opcode) := by
  simp only [decode, h]

end Sys2Proof

namespace Sys2Proof.Machine

/-! ## Requests that touch no instance (R70, R71, R205) -/

/-- A response of the addressed instance as it stands changes no instance. -/
theorem State.afterReply_unchanged {s : State} {x : Instance} (hx : s.addressed = some x) (r : Response) :
    s.afterReply x r = ⟨s.instances, s.host, s.target, s.replies ++ [⟨s.target, r⟩]⟩ := by
  rw [State.afterReply, State.set_addressed hx]

/-- An instance answers an instruction of the other direction with IllegalOperation, unchanged. -/
theorem Instance.run_misdirected {i : Instr} {x : Instance} (h : i.direction ≠ x.direction) :
    x.run i = (x, .error (.illegalOperation i.opcode)) := by
  match hd : i.direction, x with
  | .enc, .encoder _ | .dec, .decoder _ => exact absurd hd h
  | .enc, .decoder d => exact run_encode_decoder hd d
  | .dec, .encoder e => exact run_decode_encoder hd e

theorem exec_misdirected {i : Instr} {s : State} {x : Instance} (hw : i.wellFormed = true)
    (hx : s.addressed = some x) (h : i.direction ≠ x.direction) :
    exec i s = .next (s.afterReply x (.error (.illegalOperation i.opcode))) := by
  rw [exec_eq_run hw hx, Instance.run_misdirected h]

/-- A request whose opcode has the other direction is answered IllegalOperation, whatever it decodes to. -/
theorem step_request_otherDirection {s : State} {rest : List HostAction} {n : Nat} {r : Request} {x : Instance}
    (h : s.host = .request n r :: rest) (hx : s.instances[n]? = some x) (hd : directionOf r.opcode ≠ x.direction) :
    step s =
      .next (State.afterReply ⟨s.instances, rest, n, s.replies⟩ x (.error (.illegalOperation r.opcode))) := by
  match hr : decode r with
  | .ok i =>
    have hopcode : i.opcode = r.opcode := congrArg Request.opcode (encode_of_decode hr)
    have hi : i.direction ≠ x.direction := decodeOpcode_direction (decode_ok hr).1 ▸ hd
    have hx' : State.addressed ⟨s.instances, rest, n, s.replies⟩ = some x := hx
    rw [step_request_ok h hx hr, exec_misdirected (decode_wellFormed hr) hx' hi, hopcode]
  | .error err =>
    rcases decode_error hr with ⟨rfl, _⟩ | ⟨_, _, rfl, _⟩
    · exact step_request_reserved h hx hr
    · exact step_request_misdirected h hx hr hd

end Sys2Proof.Machine

section
open Sys2Proof Sys2Proof.Machine

/-- Settles O11: the opcode byte names the operation and the operand is read back. -/
theorem decodeEncodeAgree : Obligations.DecodeEncodeAgree :=
  fun _ => decode_encode

/-- Settles O12: an operation has one opcode byte, and each operand comes from one instruction. -/
theorem encodeDecodeAgree : Obligations.EncodeDecodeAgree :=
  fun _ _ h => ⟨encode_of_decode h, decode_wellFormed h⟩

/-- Settles O13: an instruction's opcode byte depends on its direction and its type alone. -/
theorem opcodeByteFields : Obligations.OpcodeByteFields := by
  intro i
  change (opcodeOf i.direction i.wireType).getLsbD 7 = _ ∧ (opcodeOf i.direction i.wireType).extractLsb' 4 3 = 0 ∧
    (opcodeOf i.direction i.wireType).extractLsb' 0 4 = _
  cases i.direction <;> cases i.wireType <;> decide

/-- Settles O14: each sample is the encoding of a well-formed instruction. -/
theorem sampleRequestsDecode : Obligations.SampleRequestsDecode :=
  have hsigned : encode (.encS16 (-2)) = ⟨0b00000010, .word16 0xFFFE⟩ := by decide
  ⟨decode_encode (i := .encBool true) rfl, hsigned ▸ decode_encode (by decide),
    decode_encode (i := .encF32 0x7FC00000) rfl, decode_encode (i := .encText [0x0048, 0x0000]) rfl,
    decode_encode (i := .decS64) rfl, decode_encode (i := .decText) rfl⟩

/-- Settles O8: a reserved opcode ends the request before it reaches an instance. -/
theorem reservedOpcodesRaiseIllegalOperation : Obligations.ReservedOpcodesRaiseIllegalOperation := by
  refine ⟨fun _ => decodeOpcode_eq_none_iff, by decide +kernel, fun s n r rest h hn hr => ?_⟩
  have hx : State.addressed ⟨s.instances, rest, n, s.replies⟩ = some s.instances[n] := List.getElem?_eq_getElem hn
  rw [step_request_reserved h hx (decode_reserved hr), State.afterReply_unchanged hx]

/-- Settles O9: bit 7 is the direction of whatever the request names. -/
theorem wrongDirectionRaisesIllegalOperation : Obligations.WrongDirectionRaisesIllegalOperation := by
  intro s n r rest h hwrong
  have hother : ∃ x, State.addressed ⟨s.instances, rest, n, s.replies⟩ = some x ∧
      directionOf r.opcode ≠ x.direction := by
    rcases hwrong with ⟨hbit, e, he⟩ | ⟨hbit, d, hd⟩ <;> rw [directionOf, hbit]
    · exact ⟨.encoder e, he, nofun⟩
    · exact ⟨.decoder d, hd, nofun⟩
  obtain ⟨x, hx, hd⟩ := hother
  rw [step_request_otherDirection h hx hd, State.afterReply_unchanged hx]

/-- Settles O10: the instance answers before any stream call. -/
theorem misdirectedInstructionChangesNothing : Obligations.MisdirectedInstructionChangesNothing := by
  intro i s x hw hx hd
  rw [exec_misdirected hw hx hd, State.afterReply_unchanged hx]
  rfl

end

/-! PROOFS. The forms of a code unit as R63's bit fields (30_encoding.md R63 to R66, R74). Settles O35, O34 and O41. -/

namespace Sys2Proof.Machine

/-! ## Masks and shifts as bit fields -/

/-- One field put above another is the source's shift and or, whatever width is taken of it. -/
theorem setWidth_append_eq_or {v w u : Nat} (x : BitVec v) (y : BitVec w) :
    (x ++ y).setWidth u = (x.setWidth u <<< w) ||| y.setWidth u := by
  ext i hi
  rcases Nat.lt_or_ge i w with h | h
  · simp [BitVec.getLsbD_append, h]
  · simp [BitVec.getLsbD_append, Nat.not_lt.mpr h, BitVec.getLsbD_of_ge y i h]

/-- A shift and a mask of `n` low ones keep the field of `n` bits from bit `k` on. -/
theorem setWidth_shift_and_mask {w n v : Nat} (x : BitVec w) (k : Nat) (hn : n ≤ w) :
    ((x >>> k) &&& BitVec.ofNat w (2 ^ n - 1)).setWidth v = (x.extractLsb' k n).setWidth v := by
  have hmask : 2 ^ n - 1 < 2 ^ w :=
    lt_of_lt_of_le (Nat.sub_one_lt (Nat.two_pow_pos n).ne') (Nat.pow_le_pow_right two_pos hn)
  apply BitVec.eq_of_toNat_eq
  rw [BitVec.toNat_setWidth, BitVec.toNat_and, BitVec.toNat_ofNat, Nat.mod_eq_of_lt hmask,
    Nat.and_two_pow_sub_one_eq_mod, BitVec.toNat_setWidth, BitVec.extractLsb'_toNat, BitVec.toNat_ushiftRight]

/-- The fixed top bits of a form's byte above a field of the code unit. -/
theorem tag_or_mask_eq_append {w n v : Nat} (tag : BitVec v) (x : BitVec w) (k : Nat) (hn : n ≤ w) :
    (tag.setWidth (v + n) <<< n) ||| ((x >>> k) &&& BitVec.ofNat w (2 ^ n - 1)).setWidth (v + n) =
      tag ++ x.extractLsb' k n := by
  rw [setWidth_shift_and_mask x k hn, ← setWidth_append_eq_or, BitVec.setWidth_eq]

/-- A mask of ones above bit `k` keeps the field from there on. -/
theorem and_highMask {v k : Nat} (x : BitVec (v + k)) :
    x &&& (BitVec.allOnes v ++ 0#k) = x.extractLsb' k v ++ 0#k := by
  ext i hi
  rcases Nat.lt_or_ge i k with h | h
  · simp [BitVec.getElem_append, h]
  · simp [BitVec.getElem_append, Nat.not_lt.mpr h, Nat.add_sub_cancel' h, BitVec.getLsbD_eq_getElem hi]

/-- What a field stands for when another is put above it. -/
theorem toNat_append_eq_add {v w : Nat} (x : BitVec v) (y : BitVec w) :
    (x ++ y).toNat = x.toNat * 2 ^ w + y.toNat := by
  rw [BitVec.toNat_append, ← Nat.shiftLeft_add_eq_or_of_lt y.isLt, Nat.shiftLeft_eq]

/-! ## Encoding (R63) -/

/-- The 1-byte form: a unit below 0x80 is its own low seven bits. -/
theorem extractLsb'_low_byte_of_le {c : Word16} (h : c.toNat ≤ 0x7F) :
    c.extractLsb' 0 8 = 0#1 ++ c.extractLsb' 0 7 := by
  apply BitVec.eq_of_toNat_eq
  rw [toNat_append_eq_add 0#1 (c.extractLsb' 0 7)]
  simp
  omega

/-- The form the source writes with masks is the table's, field by field. -/
theorem encUnit_eq_formByFields (c : Word16) : encUnit c = formByFields c := by
  have hlead2 : 0xC0#8 ||| ((c >>> 6) &&& 0x1F#16).setWidth 8 = 0b110#3 ++ c.extractLsb' 6 5 :=
    tag_or_mask_eq_append (n := 5) 0b110#3 c 6 (by decide)
  have hlead3 : 0xE0#8 ||| ((c >>> 12) &&& 0x0F#16).setWidth 8 = 0b1110#4 ++ c.extractLsb' 12 4 :=
    tag_or_mask_eq_append (n := 4) 0b1110#4 c 12 (by decide)
  have hmid : 0x80#8 ||| ((c >>> 6) &&& 0x3F#16).setWidth 8 = 0b10#2 ++ c.extractLsb' 6 6 :=
    tag_or_mask_eq_append (n := 6) 0b10#2 c 6 (by decide)
  have hlow : 0x80#8 ||| (c &&& 0x3F#16).setWidth 8 = 0b10#2 ++ c.extractLsb' 0 6 :=
    tag_or_mask_eq_append (n := 6) 0b10#2 c 0 (by decide)
  have hone : c ≠ 0x0000#16 ∧ c < 0x0080#16 ↔ 0x0001 ≤ c.toNat ∧ c.toNat ≤ 0x007F := by bv_omega
  have htwo : c < 0x0800#16 ↔ c.toNat ≤ 0x07FF := by bv_omega
  simp only [encUnit, formByFields, hone, htwo, hlead2, hlead3, hmid, hlow]
  split
  case isTrue h => rw [extractLsb'_low_byte_of_le h.2]
  case isFalse => rfl

/-! ## Decoding (R64 to R66) -/

/-- A lead byte's class is decided by its upper half. -/
theorem toNat_leadNibble (b : Byte) : (b.extractLsb' 4 4).toNat = b.toNat / 16 := by
  have := b.isLt
  simp [Nat.shiftRight_eq_div_pow]
  omega

/-- The table's ranges of lead bytes (R64). -/
theorem leadClass_ranges (b : Byte) :
    (leadClass b = .one ↔ b.toNat ≤ 0x7F) ∧ (leadClass b = .two ↔ 0xC0 ≤ b.toNat ∧ b.toNat ≤ 0xDF) ∧
    (leadClass b = .three ↔ 0xE0 ≤ b.toNat ∧ b.toNat ≤ 0xEF) ∧
    (leadClass b = .invalid ↔ (0x80 ≤ b.toNat ∧ b.toNat ≤ 0xBF) ∨ 0xF0 ≤ b.toNat) := by
  unfold leadClass
  rw [toNat_leadNibble]
  split_ifs <;> simp <;> omega

/-- The source's mask looks at the top two bits alone (R65). -/
theorem isContinuation_iff {b : Byte} : isContinuation b = true ↔ 0x80 ≤ b.toNat ∧ b.toNat ≤ 0xBF := by
  have htop : b &&& 0xC0#8 = b.extractLsb' 6 2 ++ 0#6 := and_highMask (v := 2) (k := 6) b
  have hval : (b &&& 0xC0#8).toNat = b.toNat / 64 * 64 := by
    have := b.isLt
    rw [htop, toNat_append_eq_add (b.extractLsb' 6 2) 0#6]
    simp [Nat.shiftRight_eq_div_pow]
    omega
  rw [isContinuation, decide_eq_true_iff, ← BitVec.toNat_inj, hval, BitVec.toNat_ofNat]
  omega

/-- A field of one byte as R66's expressions widen it. -/
theorem setWidth_and_mask {n v : Nat} (b : Byte) (hn : n ≤ 8) :
    (b &&& BitVec.ofNat 8 (2 ^ n - 1)).setWidth v = (b.extractLsb' 0 n).setWidth v :=
  setWidth_shift_and_mask b 0 hn

/-- Zeros above a word are its widening. -/
theorem setWidth_eq_zero_append {v w : Nat} (x : BitVec w) : x.setWidth (v + w) = 0#v ++ x := by
  simpa using (setWidth_append_eq_or (u := v + w) 0#v x).symm

theorem unit1_eq_fields (b0 : Byte) : unit1 b0 = 0#8 ++ b0 :=
  setWidth_eq_zero_append b0

theorem unit2_eq_fields (b0 b1 : Byte) : unit2 b0 b1 = 0#5 ++ b0.extractLsb' 0 5 ++ b1.extractLsb' 0 6 := by
  have h0 : (b0 &&& 0x1F#8).setWidth 16 = (b0.extractLsb' 0 5).setWidth 16 := setWidth_and_mask (n := 5) b0 (by decide)
  have h1 : (b1 &&& 0x3F#8).setWidth 16 = (b1.extractLsb' 0 6).setWidth 16 := setWidth_and_mask (n := 6) b1 (by decide)
  rw [unit2, h0, h1, ← BitVec.setWidth_eq (0#5 ++ _ ++ _), setWidth_append_eq_or, setWidth_append_eq_or]
  simp

theorem unit3_eq_fields (b0 b1 b2 : Byte) :
    unit3 b0 b1 b2 = b0.extractLsb' 0 4 ++ b1.extractLsb' 0 6 ++ b2.extractLsb' 0 6 := by
  have h0 : (b0 &&& 0x0F#8).setWidth 16 = (b0.extractLsb' 0 4).setWidth 16 := setWidth_and_mask (n := 4) b0 (by decide)
  have h1 : (b1 &&& 0x3F#8).setWidth 16 = (b1.extractLsb' 0 6).setWidth 16 := setWidth_and_mask (n := 6) b1 (by decide)
  have h2 : (b2 &&& 0x3F#8).setWidth 16 = (b2.extractLsb' 0 6).setWidth 16 := setWidth_and_mask (n := 6) b2 (by decide)
  rw [unit3, h0, h1, h2, ← BitVec.setWidth_eq (_ ++ _ ++ _), setWidth_append_eq_or, setWidth_append_eq_or,
    BitVec.shiftLeft_or_distrib, ← BitVec.shiftLeft_add]

theorem toNat_unit2 (b0 b1 : Byte) : (unit2 b0 b1).toNat = b0.toNat % 32 * 64 + b1.toNat % 64 := by
  rw [unit2_eq_fields, toNat_append_eq_add (0#5 ++ b0.extractLsb' 0 5) (b1.extractLsb' 0 6),
    toNat_append_eq_add 0#5 (b0.extractLsb' 0 5)]
  simp

theorem toNat_unit3 (b0 b1 b2 : Byte) :
    (unit3 b0 b1 b2).toNat = b0.toNat % 16 * 4096 + b1.toNat % 64 * 64 + b2.toNat % 64 := by
  rw [unit3_eq_fields, toNat_append_eq_add (b0.extractLsb' 0 4 ++ b1.extractLsb' 0 6) (b2.extractLsb' 0 6),
    toNat_append_eq_add (b0.extractLsb' 0 4) (b1.extractLsb' 0 6)]
  simp
  ring

/-! ## Bodies of one form -/

theorem decodeBody_one {b0 : Byte} (h0 : b0.toNat ≤ 0x7F) : decodeBody [b0] = .ok [unit1 b0] := by
  obtain ⟨hone, _⟩ := leadClass_ranges b0
  rw [decodeBody, decodeBodyFrom_one (hone.mpr h0), decodeBodyFrom_nil, consUnit_ok]

theorem decodeBody_two {b0 b1 : Byte} (h0 : 0xC0 ≤ b0.toNat ∧ b0.toNat ≤ 0xDF)
    (h1 : 0x80 ≤ b1.toNat ∧ b1.toNat ≤ 0xBF) : decodeBody [b0, b1] = .ok [unit2 b0 b1] := by
  obtain ⟨_, htwo, _⟩ := leadClass_ranges b0
  rw [decodeBody, decodeBodyFrom_two (htwo.mpr h0), if_pos (isContinuation_iff.mpr h1), decodeBodyFrom_nil, consUnit_ok]

theorem decodeBody_three {b0 b1 b2 : Byte} (h0 : 0xE0 ≤ b0.toNat ∧ b0.toNat ≤ 0xEF)
    (h1 : 0x80 ≤ b1.toNat ∧ b1.toNat ≤ 0xBF) (h2 : 0x80 ≤ b2.toNat ∧ b2.toNat ≤ 0xBF) :
    decodeBody [b0, b1, b2] = .ok [unit3 b0 b1 b2] := by
  obtain ⟨_, _, hthree, _⟩ := leadClass_ranges b0
  rw [decodeBody, decodeBodyFrom_three (hthree.mpr h0), isContinuation_iff.mpr h1, isContinuation_iff.mpr h2,
    Bool.and_self, if_pos rfl, decodeBodyFrom_nil, consUnit_ok]

end Sys2Proof.Machine

section
open Sys2Proof Sys2Proof.Machine

/-- Settles O35: the source's shifts, masks and ors put the table's fields together. -/
theorem encUnitForms : Obligations.EncUnitForms :=
  encUnit_eq_formByFields

/-- Settles O41: a form's class and its continuation bytes decide alone; the value is never compared with the shortest
form's range. -/
theorem nonCanonicalFormsAreAccepted : Obligations.NonCanonicalFormsAreAccepted := by
  refine ⟨decodeBody_one (by decide), fun b₀ b₁ h₀ h₁ => ?_, fun b₁ b₂ h₁ h₂ => ?_⟩
  · have hlead : b₀.toNat = 0xC0 ∨ b₀.toNat = 0xC1 := h₀.imp (congrArg BitVec.toNat) (congrArg BitVec.toNat)
    have hval := toNat_unit2 b₀ b₁
    exact ⟨_, decodeBody_two (by omega) h₁, by omega, by omega⟩
  · have hval : (unit3 0xE0 b₁ b₂).toNat = b₁.toNat % 64 * 64 + b₂.toNat % 64 := by simp [toNat_unit3]
    exact ⟨_, decodeBody_three (by decide) (by omega) h₂, by omega, by omega⟩

/-- Settles O34: the lead's upper half and a continuation's top two bits decide; masks and shifts are bit fields. -/
theorem leadClassesAndAssembly : Obligations.LeadClassesAndAssembly := by
  refine ⟨fun b => ?_, fun b₀ b₁ b₂ => ⟨unit1_eq_fields b₀, unit2_eq_fields b₀ b₁, unit3_eq_fields b₀ b₁ b₂⟩⟩
  obtain ⟨hone, htwo, hthree, hinvalid⟩ := leadClass_ranges b
  exact ⟨hone, htwo, hthree, hinvalid, isContinuation_iff⟩

end

/-! PROOFS. Lines of the assembler (30_encoding.md R76). Settles O53, O54 and O55. -/

namespace Sys2Proof.Machine

/-! ## A line that starts with a mnemonic -/

/-- No character of a mnemonic ends the word. -/
theorem firstWord_mnemonicOf_append (d : Direction) (t : WireType) {tail : List Char} (h : firstWord tail = []) :
    firstWord (mnemonicOf d t ++ tail) = mnemonicOf d t := by
  have hword : firstWord (mnemonicOf d t) = mnemonicOf d t := by cases d <;> cases t <;> decide
  rw [firstWord] at h hword ⊢
  rw [List.takeWhile_append_of_pos (List.takeWhile_eq_self_iff.mp hword), h, List.append_nil]

theorem operationNamed_mnemonicOf (d : Direction) (t : WireType) : operationNamed (mnemonicOf d t) = some (d, t) := by
  cases d <;> cases t <;> decide

/-- A mnemonic starts with a letter, so there is no blank to skip. -/
theorem skipBlanks_mnemonicOf_append (d : Direction) (t : WireType) (tail : List Char) :
    skipBlanks (mnemonicOf d t ++ tail) = mnemonicOf d t ++ tail := by
  cases d <;> exact List.dropWhile_cons_of_neg (by decide)

theorem lineEnds_mnemonicOf_append (d : Direction) (t : WireType) (tail : List Char) :
    lineEnds (mnemonicOf d t ++ tail) = false := by
  rw [lineEnds, skipBlanks_mnemonicOf_append]
  cases d <;> rfl

/-- A mnemonic, an operand the operation takes, and no more than a comment after it are the operation's request. -/
theorem assembleLine_mnemonicOf_append {d : Direction} {t : WireType} {tail rest : List Char} {o : Operand}
    (hword : firstWord tail = []) (hoperand : parseOperand d t (skipBlanks tail) = some (o, rest))
    (hend : lineEnds rest = true) : assembleLine (mnemonicOf d t ++ tail) = .ok (some ⟨opcodeOf d t, o⟩) := by
  simp [assembleLine, lineEnds_mnemonicOf_append, skipBlanks_mnemonicOf_append, firstWord_mnemonicOf_append d t hword,
    operationNamed_mnemonicOf, hoperand, hend]

/-- A blank after the mnemonic is skipped, and the operand starts at the next character that is none. -/
theorem assembleLine_operand {d : Direction} {t : WireType} {c : Char} {cs rest : List Char} {o : Operand}
    (hc : isBlank c = false) (hoperand : parseOperand d t (c :: cs) = some (o, rest)) (hend : lineEnds rest = true) :
    assembleLine (mnemonicOf d t ++ ' ' :: c :: cs) = .ok (some ⟨opcodeOf d t, o⟩) := by
  have hskip : skipBlanks (' ' :: c :: cs) = c :: cs := by
    rw [skipBlanks, List.dropWhile_cons_of_pos (by decide), List.dropWhile_cons_of_neg (by simp [hc])]
  exact assembleLine_mnemonicOf_append rfl (hskip.symm ▸ hoperand) hend

/-- A decode takes no operand: whatever follows it must be a comment. -/
theorem assembleLine_decode (t : WireType) {tail : List Char} (hword : firstWord tail = [])
    (hend : lineEnds (skipBlanks tail) = true) :
    assembleLine (mnemonicOf .dec t ++ tail) = .ok (some ⟨opcodeOf .dec t, .none⟩) :=
  assembleLine_mnemonicOf_append hword rfl hend

/-! ## Quoted texts -/

/-- The characters up to the closing quote are the units. -/
theorem quotedUnits_append_quote {cs : List Char}
    (h : ∀ c ∈ cs, 0x20 ≤ c.toNat ∧ c.toNat ≤ 0x7E ∧ c.toNat ≠ 0x22 ∧ c.toNat ≠ 0x5C) :
    quotedUnits (cs ++ [Char.ofNat 0x22]) = some (cs.map fun c => BitVec.ofNat 16 c.toNat, []) := by
  induction cs with
  | nil => rfl
  | cons c cs ih =>
    obtain ⟨⟨hlo, hhi, hquote, hbackslash⟩, hcs⟩ := List.forall_mem_cons.mp h
    rw [List.cons_append, quotedUnits, if_neg hquote, if_pos ⟨hlo, hhi, hbackslash⟩, ih hcs]
    rfl

theorem textOperand_quoted {cs : List Char}
    (h : ∀ c ∈ cs, 0x20 ≤ c.toNat ∧ c.toNat ≤ 0x7E ∧ c.toNat ≠ 0x22 ∧ c.toNat ≠ 0x5C) :
    textOperand (Char.ofNat 0x22 :: (cs ++ [Char.ofNat 0x22])) =
      some (cs.map fun c => BitVec.ofNat 16 c.toNat, []) := by
  rw [textOperand, if_pos (by decide), quotedUnits_append_quote h]

/-! ## Hexadecimal literals -/

/-- A character at the place `d` of one of the two lists of digits is a digit of value `d`. -/
theorem hexDigit_of_spells {c : Char} {d : Nat} (h : lowerHexDigits[d]? = some c ∨ upperHexDigits[d]? = some c) :
    hexDigit c = some d := by
  have hlower : ∀ k : Fin 16, hexDigit lowerHexDigits[k] = some k.val := by decide
  have hupper : ∀ k : Fin 16, hexDigit upperHexDigits[k] = some k.val := by decide
  rcases h with h | h <;> obtain ⟨hd, rfl⟩ := List.getElem?_eq_some_iff.mp h
  · exact hlower ⟨d, hd⟩
  · exact hupper ⟨d, hd⟩

/-- Digits up to the end of the line are all read. -/
theorem spanDigits_of_spellsHex {cs : List Char} {ds : List Nat} (h : spellsHex cs ds) :
    spanDigits hexDigit cs = (ds, []) := by
  induction h with
  | nil => rfl
  | cons hc _ ih => simp [spanDigits, hexDigit_of_spells hc, ih]

/-- Reading digits from the left, with `acc` read so far, adds up their weights. -/
theorem foldl_digits_eq_hexValue (ds : List Nat) (acc : Nat) :
    ds.foldl (fun acc v => acc * 16 + v) acc = acc * 16 ^ ds.length + hexValue ds := by
  induction ds generalizing acc with
  | nil => simp [hexValue]
  | cons d ds ih => rw [List.foldl_cons, ih, hexValue, List.length_cons]; ring

theorem digitsValue_eq_hexValue (ds : List Nat) : digitsValue 16 ds = hexValue ds := by
  rw [digitsValue, foldl_digits_eq_hexValue, zero_mul, zero_add]

/-- A literal of one to `most` digits that spell `ds` is the number they stand for. -/
theorem hexLiteral_of_spellsHex {cs : List Char} {ds : List Nat} {most : Nat} (h : spellsHex cs ds)
    (hpos : 1 ≤ ds.length) (hmost : ds.length ≤ most) :
    hexLiteral most ('0' :: 'x' :: cs) = some (hexValue ds, []) := by
  have hne : ds ≠ [] := List.length_pos_iff.mp hpos
  simp [hexLiteral, spanDigits_of_spellsHex h, digitsValue_eq_hexValue, hne, hmost]

/-- A signed operand takes a hexadecimal literal as its bit pattern. -/
theorem signedOperand_of_hexLiteral {n v : Nat} {cs rest : List Char} (h : hexLiteral (n / 4) cs = some (v, rest)) :
    signedOperand n cs = some (BitVec.ofNat n v, rest) := by
  simp only [signedOperand, h]

/-- An operation that reads the literal as the operand `o` makes its request of it. -/
theorem assembleLine_hex {t : WireType} {cs : List Char} {o : Operand}
    (h : parseOperand .enc t ('0' :: 'x' :: cs) = some (o, [])) :
    assembleLine (mnemonicOf .enc t ++ ' ' :: '0' :: 'x' :: cs) = .ok (some ⟨opcodeOf .enc t, o⟩) :=
  assembleLine_operand (by decide) h rfl

end Sys2Proof.Machine

section
open Sys2Proof Sys2Proof.Machine

/-- Settles O53: nothing is left of the line after the mnemonic but a comment. -/
theorem decodeMnemonicsAssemble : Obligations.DecodeMnemonicsAssemble := by
  intro p hp
  have htable : ∃ t ∈ WireType.all, p.1.toList = mnemonicOf .dec t ∧ p.2 = opcodeOf .dec t := by
    revert p
    decide
  obtain ⟨t, _, hname, hopcode⟩ := htable
  rw [hname, hopcode]
  refine ⟨?_, fun comment => ?_⟩
  · rw [← List.append_nil (mnemonicOf .dec t)]
    exact assembleLine_decode t rfl rfl
  · rw [List.append_assoc]
    exact assembleLine_decode t rfl rfl

/-- Settles O54, by induction on the characters. -/
theorem quotedTextAssembles : Obligations.QuotedTextAssembles := by
  intro cs h
  have hoperand : parseOperand .enc .text (Char.ofNat 0x22 :: (cs ++ [Char.ofNat 0x22])) =
      some (.text (cs.map fun c => BitVec.ofNat 16 c.toNat), []) :=
    congrArg (Option.map _) (textOperand_quoted h)
  exact assembleLine_operand (by decide) hoperand rfl

/-- Settles O55: one literal, read at each width as an unsigned operand or as a signed one's bit pattern. -/
theorem hexOperandsAssemble : Obligations.HexOperandsAssemble := by
  intro cs ds h hpos
  refine ⟨fun hlen => ?_, fun hlen => ?_, fun hlen => ?_⟩ <;> have hlit := hexLiteral_of_spellsHex h hpos hlen
  · exact ⟨assembleLine_hex (t := .u16) (by simp [parseOperand, hlit]),
      assembleLine_hex (t := .s16) (by simp [parseOperand, signedOperand_of_hexLiteral (n := 16) hlit]),
      assembleLine_hex (t := .char) (by simp [parseOperand, hlit])⟩
  · exact ⟨assembleLine_hex (t := .u32) (by simp [parseOperand, hlit]),
      assembleLine_hex (t := .s32) (by simp [parseOperand, signedOperand_of_hexLiteral (n := 32) hlit]),
      assembleLine_hex (t := .f32) (by simp [parseOperand, hlit])⟩
  · exact ⟨assembleLine_hex (t := .u64) (by simp [parseOperand, hlit]),
      assembleLine_hex (t := .s64) (by simp [parseOperand, signedOperand_of_hexLiteral (n := 64) hlit]),
      assembleLine_hex (t := .f64) (by simp [parseOperand, hlit])⟩

end

/-! PROOFS. The twenty fixed-width operations (40_fixed_width.md R102 to R123). Settles O21, O22, O23, O25, O26, O27,
O28, O20 and O24. -/

namespace Sys2Proof.Machine

/-! ## Fixed-width encodes (R100) -/

/-- A well-formed encode that has a wire image leaves the drawn prefix of it in a failing sink (R46). -/
theorem writeFails_wireImage {i : Instr} {wire : List Byte} (hd : i.direction = .enc) (hw : i.wellFormed = true)
    (hi : wireImage i = some wire) : WriteFails i wire := by
  intro s e err k hs ha
  have hwork : encodeWork i e = sinkWrite wire e := by
    rcases encodeWork_eq hd e with ⟨wire', hi', hwork⟩ | ⟨_, _, hnone, _⟩
    · rw [hwork, Option.some.inj (hi'.symm.trans hi)]
    · cases hnone.symm.trans hi
  rw [exec_encode hd hw, State.onEncoder_encoder hs, hwork, sinkWrite_fail ha]
  rfl

/-- Encodes with one stream work do the same to an Encoder: only a Decoder sees their opcodes (R123). -/
theorem exec_eq_of_encodeWork_eq {i j : Instr} {s : State} {e : Encoder} (hs : s.addressed = some (.encoder e))
    (hi : i.direction = .enc) (hj : j.direction = .enc) (hwi : i.wellFormed = true) (hwj : j.wellFormed = true)
    (h : encodeWork i = encodeWork j) : exec i s = exec j s := by
  rw [exec_encode hi hwi, exec_encode hj hwj, State.onEncoder_encoder hs, State.onEncoder_encoder hs, h]

/-! ## Fixed-width decodes (R101) -/

/-- A byte's field is that byte. -/
theorem beBytes_one (b : Byte) : beBytes 1 b = [b] := by
  simp

/-- Behind the field of a word comes the field of the byte put below it. -/
theorem beBytes_append_byte {w : Nat} (n : Nat) (hi : BitVec w) (b : Byte) :
    beBytes (n + 1) (hi ++ b) = beBytes n hi ++ [b] := by
  rw [← beBytes_one b]
  exact beBytes_append n 1 hi b

/-- A wire byte's boolean, by the byte's number (R61). -/
theorem byteBool_eq_toNat (b : Byte) : byteBool b = decide (b.toNat ≠ 0) := by
  simp [byteBool, BitVec.toNat_eq]

/-- A signed decode reads the bytes of a word as the word's two's-complement integer (R10, R122). -/
theorem reads_toInt {j : Instr} {m n : Nat} (hd : j.direction = .dec)
    (hj : decodeWork j = fixedDecode m n fun w => .int (toSigned w)) (hm : m = 8 * n) (hn : n ≠ 0) (w : BitVec m) :
    Reads j (beBytes n w) (.int w.toInt) :=
  toSigned_eq_toInt w ▸ reads_beBytes hd hj hm hn w

/-- A decode of a fixed-width type is one read of its field. -/
theorem decodeWork_of_fieldBytes {i : Instr} {n : Nat} (hd : i.direction = .dec)
    (hn : fieldBytes i.wireType = some n) :
    n ≠ 0 ∧ ∃ (m : Nat) (toResult : BitVec m → Result), decodeWork i = fixedDecode m n toResult := by
  rcases decodeWork_eq hd with ⟨rfl, _⟩ | ⟨m, n', toResult, hpos, _, hn', _, hwork⟩
  · cases hn
  · cases hn.symm.trans hn'
    exact ⟨hpos, m, toResult, hwork⟩

/-- A fixed-width decode that finds fewer bytes than its field has ends short (R42). -/
theorem readsShort_of_fieldBytes {i : Instr} {n : Nat} (hd : i.direction = .dec)
    (hn : fieldBytes i.wireType = some n) : ReadsShort i n := by
  intro s d hs ha hl
  obtain ⟨_, m, toResult, hwork⟩ := decodeWork_of_fieldBytes hd hn
  rw [exec_decode hd, State.onDecoder_decoder hs, hwork, fixedDecode, srcRead_short ha hl]
  rfl

/-- A fixed-width decode on a failing source drops the drawn bytes (R43). -/
theorem readFails_of_fieldBytes {i : Instr} {n : Nat} (hd : i.direction = .dec)
    (hn : fieldBytes i.wireType = some n) : ReadFails i n := by
  intro s d err k hs ha
  obtain ⟨hpos, m, toResult, hwork⟩ := decodeWork_of_fieldBytes hd hn
  rw [exec_decode hd, State.onDecoder_decoder hs, hwork, fixedDecode, srcRead_fail hpos ha]
  rfl

/-- Decodes with one stream work do the same to a Decoder: only an Encoder sees their opcodes (R123). -/
theorem exec_eq_of_decodeWork_eq {i j : Instr} {s : State} {d : Decoder} (hs : s.addressed = some (.decoder d))
    (hi : i.direction = .dec) (hj : j.direction = .dec) (h : decodeWork i = decodeWork j) : exec i s = exec j s := by
  rw [exec_decode hi, exec_decode hj, State.onDecoder_decoder hs, State.onDecoder_decoder hs, h]

/-- What a response leaves tells which instance was put there and what it answered. -/
theorem State.afterReply_inj {s : State} {x y z : Instance} {r r' : Response} (hs : s.addressed = some z)
    (h : s.afterReply x r = s.afterReply y r') : x = y ∧ r = r' := by
  have hinstance : some x = some y := by
    rw [← State.afterReply_addressed (r := r) hs, h, State.afterReply_addressed hs]
  have hreplies : s.replies ++ [⟨s.target, r⟩] = s.replies ++ [⟨s.target, r'⟩] := congrArg State.replies h
  exact ⟨Option.some.inj hinstance, by simpa using hreplies⟩

/-- Where an unsigned decode gives a word, the signed decode of its width gives the word's signed reading, with the same
effect (R101, R123). -/
theorem exec_signedDecode {i j : Instr} {m n : Nat} {toResult : BitVec m → Result} {s : State} {d : Decoder}
    {x : Instance} {w : BitVec m} (hinj : Function.Injective toResult) (hs : s.addressed = some (.decoder d))
    (hi : i.direction = .dec) (hj : j.direction = .dec) (hwi : decodeWork i = fixedDecode m n toResult)
    (hwj : decodeWork j = fixedDecode m n fun w => .int (toSigned w))
    (h : exec i s = .next (s.afterReply x (.ok (some (toResult w))))) :
    exec j s = .next (s.afterReply x (.ok (some (.int (toSigned w))))) := by
  rw [exec_decode hi, State.onDecoder_decoder hs, hwi, fixedDecode] at h
  rw [exec_decode hj, State.onDecoder_decoder hs, hwj, fixedDecode]
  obtain ⟨hx, hanswer⟩ := State.afterReply_inj hs (Host.Outcome.next.inj h)
  rw [← hx]
  match hread : (srcRead n d).1 with
  | .ok bs =>
    rw [hread] at hanswer
    have hresult : toResult (BitVec.ofNat m (fromBE bs)) = toResult w := Option.some.inj (Response.ok.inj hanswer)
    rw [← hinj hresult]
    rfl
  | .error _ =>
    rw [hread] at hanswer
    cases hanswer

end Sys2Proof.Machine

section
open Sys2Proof Sys2Proof.Machine

/-- Settles O21: each wire image is R60's table of the word, a signed operand's word being its bits. -/
theorem encodesOf16Bits : Obligations.EncodesOf16Bits := by
  refine ⟨fun v => ?_, fun v hlo hhi => ?_⟩
  · exact ⟨rfl, writes_wireImage rfl rfl rfl, writeFails_wireImage rfl rfl rfl,
      rfl, writes_wireImage rfl rfl rfl, writeFails_wireImage rfl rfl rfl⟩
  · have hv : inSignedRange 16 v = true := inSignedRange_iff.mpr (by omega)
    rw [← toBits_eq_ofInt]
    exact ⟨rfl, writes_wireImage rfl hv rfl, writeFails_wireImage rfl hv rfl⟩

/-- Settles O22: each wire image is R60's table of the word, a float's word being its bit pattern. -/
theorem encodesOf32Bits : Obligations.EncodesOf32Bits := by
  refine ⟨fun v => ?_, fun v hlo hhi => ?_⟩
  · exact ⟨rfl, writes_wireImage rfl rfl rfl, writeFails_wireImage rfl rfl rfl,
      rfl, writes_wireImage rfl rfl rfl, writeFails_wireImage rfl rfl rfl⟩
  · have hv : inSignedRange 32 v = true := inSignedRange_iff.mpr (by omega)
    rw [← toBits_eq_ofInt]
    exact ⟨rfl, writes_wireImage rfl hv rfl, writeFails_wireImage rfl hv rfl⟩

/-- Settles O23: each wire image is R60's table of the word, a double's word being its bit pattern. -/
theorem encodesOf64Bits : Obligations.EncodesOf64Bits := by
  refine ⟨fun v => ?_, fun v hlo hhi => ?_⟩
  · exact ⟨rfl, writes_wireImage rfl rfl rfl, writeFails_wireImage rfl rfl rfl,
      rfl, writes_wireImage rfl rfl rfl, writeFails_wireImage rfl rfl rfl⟩
  · have hv : inSignedRange 64 v = true := inSignedRange_iff.mpr (by omega)
    rw [← toBits_eq_ofInt]
    exact ⟨rfl, writes_wireImage rfl hv rfl, writeFails_wireImage rfl hv rfl⟩

/-- Settles O25: two bytes are the field of the word they make. -/
theorem decodesOf16Bits : Obligations.DecodesOf16Bits := by
  refine ⟨⟨decode_encode (i := .decU16) rfl, decode_encode (i := .decS16) rfl, decode_encode (i := .decChar) rfl⟩,
    fun b₀ b₁ => ?_,
    ⟨readsShort_of_fieldBytes rfl rfl, readsShort_of_fieldBytes rfl rfl, readsShort_of_fieldBytes rfl rfl⟩,
    readFails_of_fieldBytes rfl rfl, readFails_of_fieldBytes rfl rfl, readFails_of_fieldBytes rfl rfl⟩
  have hbytes : beBytes 2 (b₀ ++ b₁) = [b₀, b₁] := by
    simp only [beBytes_append_byte, beBytes_one, List.cons_append, List.nil_append]
  rw [← hbytes]
  exact ⟨reads_beBytes rfl rfl rfl two_ne_zero _, reads_toInt rfl rfl rfl two_ne_zero _,
    reads_beBytes rfl rfl rfl two_ne_zero _⟩

/-- Settles O26: four bytes are the field of the word they make. -/
theorem decodesOf32Bits : Obligations.DecodesOf32Bits := by
  refine ⟨⟨decode_encode (i := .decU32) rfl, decode_encode (i := .decS32) rfl, decode_encode (i := .decF32) rfl⟩,
    fun b₀ b₁ b₂ b₃ => ?_,
    ⟨readsShort_of_fieldBytes rfl rfl, readsShort_of_fieldBytes rfl rfl, readsShort_of_fieldBytes rfl rfl⟩,
    readFails_of_fieldBytes rfl rfl, readFails_of_fieldBytes rfl rfl, readFails_of_fieldBytes rfl rfl⟩
  have hbytes : beBytes 4 (b₀ ++ b₁ ++ b₂ ++ b₃) = [b₀, b₁, b₂, b₃] := by
    simp only [beBytes_append_byte, beBytes_one, List.cons_append, List.nil_append]
  rw [← hbytes]
  exact ⟨reads_beBytes rfl rfl rfl four_ne_zero _, reads_toInt rfl rfl rfl four_ne_zero _,
    reads_beBytes rfl rfl rfl four_ne_zero _⟩

/-- Settles O27: eight bytes are the field of the word they make. -/
theorem decodesOf64Bits : Obligations.DecodesOf64Bits := by
  refine ⟨⟨decode_encode (i := .decU64) rfl, decode_encode (i := .decS64) rfl, decode_encode (i := .decF64) rfl⟩,
    fun b₀ b₁ b₂ b₃ b₄ b₅ b₆ b₇ => ?_,
    ⟨readsShort_of_fieldBytes rfl rfl, readsShort_of_fieldBytes rfl rfl, readsShort_of_fieldBytes rfl rfl⟩,
    readFails_of_fieldBytes rfl rfl, readFails_of_fieldBytes rfl rfl, readFails_of_fieldBytes rfl rfl⟩
  have hbytes : beBytes 8 (b₀ ++ b₁ ++ b₂ ++ b₃ ++ b₄ ++ b₅ ++ b₆ ++ b₇) = [b₀, b₁, b₂, b₃, b₄, b₅, b₆, b₇] := by
    simp only [beBytes_append_byte, beBytes_one, List.cons_append, List.nil_append]
  rw [← hbytes]
  exact ⟨reads_beBytes rfl rfl rfl (by decide) _, reads_toInt rfl rfl rfl (by decide) _,
    reads_beBytes rfl rfl rfl (by decide) _⟩

/-- Settles O28: operations of one width have one stream work, up to how a decode reads its word. -/
theorem sharedLayouts : Obligations.SharedLayouts := by
  refine ⟨fun s e hs => ⟨fun v hlo hhi => ?s16, fun v hlo hhi => ?s32, fun v hlo hhi => ?s64,
      fun w => ?char, fun w => ?f32, fun w => ?f64⟩,
    fun s d hs => ⟨?decChar, ?decF32, ?decF64, fun x w h => ?decS16, fun x w h => ?decS32, fun x w h => ?decS64⟩⟩
  case s16 | s32 | s64 =>
    exact exec_eq_of_encodeWork_eq hs rfl rfl (inSignedRange_iff.mpr (by omega)) rfl rfl
  case char | f32 | f64 => exact exec_eq_of_encodeWork_eq hs rfl rfl rfl rfl rfl
  case decChar | decF32 | decF64 => exact exec_eq_of_decodeWork_eq hs rfl rfl rfl
  case decS16 => exact exec_signedDecode (i := .decU16) (fun _ _ => Result.word16.inj) hs rfl rfl rfl rfl h
  case decS32 => exact exec_signedDecode (i := .decU32) (fun _ _ => Result.word32.inj) hs rfl rfl rfl rfl h
  case decS64 => exact exec_signedDecode (i := .decU64) (fun _ _ => Result.word64.inj) hs rfl rfl rfl rfl h

/-- Settles O20: the wire image is the boolean's byte. -/
theorem encBoolWritesOneByte : Obligations.EncBoolWritesOneByte :=
  fun _ => ⟨rfl, writes_wireImage rfl rfl rfl, writeFails_wireImage rfl rfl rfl⟩

/-- Settles O24: a byte is its own field, and its boolean is false at the number 0 alone. -/
theorem decBoolReadsOneByte : Obligations.DecBoolReadsOneByte := by
  refine ⟨decode_encode (i := .decBool) rfl, fun b => ?_, readsShort_of_fieldBytes rfl rfl,
    readFails_of_fieldBytes rfl rfl⟩
  rw [← beBytes_one b, ← byteBool_eq_toNat]
  exact reads_beBytes (toResult := fun b => .bool (byteBool b)) rfl rfl rfl one_ne_zero b

end

/-! PROOFS. The text operations and the scan of a body (41_text.md R140 to R155). Settles O31, O32, O33, O36, O37, O38,
O39, O40 and O42. -/

namespace Sys2Proof.Machine

/-! ## The forms of a code unit (R63 to R66) -/

/-- The bytes are one whole form that stands for the code unit, canonical or not: a lead byte and the continuation bytes
it announces (R64, R65). `decodeBodyFrom_form` and `isForm_encUnit` tie it to the model. -/
inductive IsForm : List Byte → Word16 → Prop where
  | one {b0 : Byte} (h0 : leadClass b0 = .one) : IsForm [b0] (unit1 b0)
  | two {b0 b1 : Byte} (h0 : leadClass b0 = .two) (h1 : isContinuation b1 = true) : IsForm [b0, b1] (unit2 b0 b1)
  | three {b0 b1 b2 : Byte} (h0 : leadClass b0 = .three) (h1 : isContinuation b1 = true)
      (h2 : isContinuation b2 = true) : IsForm [b0, b1, b2] (unit3 b0 b1 b2)

/-- The scan takes a whole form as its unit and goes on behind it (R144). -/
theorem decodeBodyFrom_form {form : List Byte} {u : Word16} (h : IsForm form u) (i : Nat) (rest : List Byte) :
    decodeBodyFrom i (form ++ rest) = consUnit u (decodeBodyFrom (i + form.length) rest) := by
  cases h with
  | one h0 => exact decodeBodyFrom_one h0 i rest
  | two h0 h1 => exact (decodeBodyFrom_two h0 i _ rest).trans (if_pos h1)
  | three h0 h1 h2 => exact (decodeBodyFrom_three h0 i _ _ rest).trans (if_pos (by rw [h1, h2]; rfl))

/-- The bytes start with a form that is malformed for this reason: its lead byte is invalid, the bytes end inside it, or
one of its continuation bytes is none (R148, R149). `decodeBodyFrom_malformed` and `form_or_malformed` tie it to the
model. -/
inductive IsMalformed : List Byte → Reason → Prop where
  | badLead {b0 : Byte} (h0 : leadClass b0 = .invalid) (rest : List Byte) : IsMalformed (b0 :: rest) .badLead
  | twoCut {b0 : Byte} (h0 : leadClass b0 = .two) : IsMalformed [b0] .truncated
  | threeCut {b0 : Byte} {rest : List Byte} (h0 : leadClass b0 = .three) (hr : rest.length < 2) :
      IsMalformed (b0 :: rest) .truncated
  | twoBad {b0 b1 : Byte} (h0 : leadClass b0 = .two) (h1 : isContinuation b1 = false) (rest : List Byte) :
      IsMalformed (b0 :: b1 :: rest) .badContinuation
  | threeBad {b0 b1 b2 : Byte} (h0 : leadClass b0 = .three) (h12 : (isContinuation b1 && isContinuation b2) = false)
      (rest : List Byte) : IsMalformed (b0 :: b1 :: b2 :: rest) .badContinuation

/-- The scan stops at a malformed form with that form's reason and the index of its lead byte (R144). -/
theorem decodeBodyFrom_malformed {bs : List Byte} {reason : Reason} (h : IsMalformed bs reason) (i : Nat) :
    decodeBodyFrom i bs = .error (.malformedInput i reason) := by
  cases h with
  | badLead h0 rest => exact decodeBodyFrom_invalid h0 i rest
  | twoCut h0 => exact decodeBodyFrom_two_cut h0 i
  | threeCut h0 hr => exact decodeBodyFrom_three_cut h0 i hr
  | twoBad h0 h1 rest => exact (decodeBodyFrom_two h0 i _ rest).trans (if_neg (ne_true_of_eq_false h1))
  | threeBad h0 h12 rest => exact (decodeBodyFrom_three h0 i _ _ rest).trans (if_neg (ne_true_of_eq_false h12))

/-- What is left of a body starts with a whole form or with a malformed one (R144). -/
theorem form_or_malformed (b0 : Byte) (bs : List Byte) :
    (∃ form u rest, IsForm form u ∧ b0 :: bs = form ++ rest) ∨ ∃ reason, IsMalformed (b0 :: bs) reason := by
  cases h0 : leadClass b0 with
  | one => exact .inl ⟨[b0], _, bs, .one h0, rfl⟩
  | invalid => exact .inr ⟨_, .badLead h0 bs⟩
  | two =>
    match bs with
    | [] => exact .inr ⟨_, .twoCut h0⟩
    | b1 :: rest =>
      cases h1 : isContinuation b1 with
      | true => exact .inl ⟨[b0, b1], _, rest, .two h0 h1, rfl⟩
      | false => exact .inr ⟨_, .twoBad h0 h1 rest⟩
  | three =>
    match bs with
    | [] | [_] => exact .inr ⟨_, .threeCut h0 (by simp)⟩
    | b1 :: b2 :: rest =>
      cases h12 : isContinuation b1 && isContinuation b2 with
      | true =>
        obtain ⟨h1, h2⟩ := Bool.and_eq_true_iff.mp h12
        exact .inl ⟨[b0, b1, b2], _, rest, .three h0 h1 h2, rfl⟩
      | false => exact .inr ⟨_, .threeBad h0 h12 rest⟩

/-- A scan that succeeds took a whole form first (R144). -/
theorem decodeBodyFrom_eq_ok {i : Nat} {b : Byte} {bs : List Byte} {t : Text} (h : decodeBodyFrom i (b :: bs) = .ok t) :
    ∃ form u rest t', IsForm form u ∧ b :: bs = form ++ rest ∧ decodeBodyFrom (i + form.length) rest = .ok t' ∧
      t = u :: t' := by
  rcases form_or_malformed b bs with ⟨form, u, rest, hform, hbs⟩ | ⟨_, hbad⟩
  · rw [hbs, decodeBodyFrom_form hform] at h
    obtain ⟨t', ht', rfl⟩ := consUnit_eq_ok h
    exact ⟨form, u, rest, t', hform, hbs, ht', rfl⟩
  · cases (decodeBodyFrom_malformed hbad i).symm.trans h

/-- The number of a form's byte: its fixed top bits above a field of the code unit (R63). -/
theorem toNat_tag_append_field {v : Nat} (tag : BitVec v) (c : Word16) (k n : Nat) :
    (tag ++ c.extractLsb' k n).toNat = tag.toNat * 2 ^ n + c.toNat / 2 ^ k % 2 ^ n := by
  rw [toNat_append_eq_add, BitVec.extractLsb'_toNat, Nat.shiftRight_eq_div_pow]

/-- A byte and a unit of one number: the 1-byte form (R145). -/
theorem IsForm.one_of_toNat {b0 : Byte} {u : Word16} (h0 : b0.toNat ≤ 0x7F) (hu : u.toNat = b0.toNat) :
    IsForm [b0] u := by
  obtain ⟨hone, _⟩ := leadClass_ranges b0
  have heq : unit1 b0 = u := BitVec.eq_of_toNat_eq (by rw [unit1, BitVec.toNat_setWidth, hu]; omega)
  exact heq ▸ .one (hone.mpr h0)

/-- The 2-byte form of a unit, by the table's ranges and numbers (R146). -/
theorem IsForm.two_of_toNat {b0 b1 : Byte} {u : Word16} (h0 : 0xC0 ≤ b0.toNat ∧ b0.toNat ≤ 0xDF)
    (h1 : 0x80 ≤ b1.toNat ∧ b1.toNat ≤ 0xBF) (hu : u.toNat = b0.toNat % 32 * 64 + b1.toNat % 64) :
    IsForm [b0, b1] u := by
  obtain ⟨_, htwo, _⟩ := leadClass_ranges b0
  have heq : unit2 b0 b1 = u := BitVec.eq_of_toNat_eq (by rw [toNat_unit2, hu])
  exact heq ▸ .two (htwo.mpr h0) (isContinuation_iff.mpr h1)

/-- The 3-byte form of a unit, by the table's ranges and numbers (R147). -/
theorem IsForm.three_of_toNat {b0 b1 b2 : Byte} {u : Word16} (h0 : 0xE0 ≤ b0.toNat ∧ b0.toNat ≤ 0xEF)
    (h1 : 0x80 ≤ b1.toNat ∧ b1.toNat ≤ 0xBF) (h2 : 0x80 ≤ b2.toNat ∧ b2.toNat ≤ 0xBF)
    (hu : u.toNat = b0.toNat % 16 * 4096 + b1.toNat % 64 * 64 + b2.toNat % 64) : IsForm [b0, b1, b2] u := by
  obtain ⟨_, _, hthree, _⟩ := leadClass_ranges b0
  have heq : unit3 b0 b1 b2 = u := BitVec.eq_of_toNat_eq (by rw [toNat_unit3, hu])
  exact heq ▸ .three (hthree.mpr h0) (isContinuation_iff.mpr h1) (isContinuation_iff.mpr h2)

/-- What `EncUnit` writes is a whole form of that unit (R140). -/
theorem isForm_encUnit (c : Word16) : IsForm (encUnit c) c := by
  have hc := c.isLt
  have htail (k : Nat) : (0b10#2 ++ c.extractLsb' k 6).toNat = 0x80 + c.toNat / 2 ^ k % 64 :=
    toNat_tag_append_field 0b10#2 c k 6
  have hlow := htail 0
  have hmid := htail 6
  rw [encUnit_eq_formByFields, formByFields]
  split_ifs with hone htwo
  · have h0 : (0#1 ++ c.extractLsb' 0 7).toNat = 0 + c.toNat / 2 ^ 0 % 128 := toNat_tag_append_field 0#1 c 0 7
    exact .one_of_toNat (by omega) (by omega)
  · have h0 : (0b110#3 ++ c.extractLsb' 6 5).toNat = 0xC0 + c.toNat / 2 ^ 6 % 32 :=
      toNat_tag_append_field 0b110#3 c 6 5
    exact .two_of_toNat (by omega) (by omega) (by omega)
  · have h0 : (0b1110#4 ++ c.extractLsb' 12 4).toNat = 0xE0 + c.toNat / 2 ^ 12 % 16 :=
      toNat_tag_append_field 0b1110#4 c 12 4
    exact .three_of_toNat (by omega) (by omega) (by omega) (by omega)

theorem IsForm.length_pos {form : List Byte} {u : Word16} (h : IsForm form u) : 0 < form.length := by
  cases h <;> exact Nat.succ_pos _

/-- A byte below 0x80 is a form of its own, and the lead byte of a longer form is not below (R64). -/
theorem IsForm.length_eq_one_iff {form : List Byte} {u : Word16} (h : IsForm form u) :
    form.length = 1 ↔ ∀ b ∈ form, b.toNat ≤ 0x7F := by
  cases h with
  | @one b0 h0 =>
    obtain ⟨hone, _⟩ := leadClass_ranges b0
    exact iff_of_true rfl (List.forall_mem_singleton.mpr (hone.mp h0))
  | @two b0 _ h0 _ =>
    obtain ⟨_, htwo, _⟩ := leadClass_ranges b0
    have hlead := htwo.mp h0
    exact iff_of_false (by simp) fun hall => absurd (hall b0 List.mem_cons_self) (by omega)
  | @three b0 _ _ h0 _ _ =>
    obtain ⟨_, _, hthree, _⟩ := leadClass_ranges b0
    have hlead := hthree.mp h0
    exact iff_of_false (by simp) fun hall => absurd (hall b0 List.mem_cons_self) (by omega)

/-! ## Bodies and their lengths (R141) -/

theorem length_encUnit (c : Word16) : (encUnit c).length = formLength c := by
  rw [encUnit_eq_formByFields, formByFields, formLength]
  split_ifs <;> simp only [List.length_cons, List.length_nil] <;> omega

theorem length_encodeBody (t : Text) : (encodeBody t).length = textLength t := by
  simp only [encodeBody, textLength, List.length_flatMap, length_encUnit]

theorem formLength_bounds (c : Word16) : 1 ≤ formLength c ∧ formLength c ≤ 3 := by
  unfold formLength
  split_ifs <;> decide

/-- A unit takes one to three bytes (R155). -/
theorem textLength_bounds (t : Text) : t.length ≤ textLength t ∧ textLength t ≤ 3 * t.length := by
  induction t with
  | nil => exact ⟨le_rfl, le_rfl⟩
  | cons c t ih =>
    obtain ⟨hlo, hhi⟩ := formLength_bounds c
    have hcons : textLength (c :: t) = formLength c + textLength t := rfl
    rw [hcons, List.length_cons]
    omega

theorem textLength_replicate (n : Nat) (c : Word16) : textLength (List.replicate n c) = n * formLength c := by
  simp [textLength]

/-! ## Scanning what was encoded (R144, R152) -/

/-- Behind the body of a text the scan goes on at that body's length, with the text's units already taken. -/
theorem decodeBodyFrom_encodeBody_append (t : Text) (i : Nat) (rest : List Byte) :
    decodeBodyFrom i (encodeBody t ++ rest) =
      (decodeBodyFrom (i + (encodeBody t).length) rest).map (t ++ ·) := by
  induction t generalizing i with
  | nil => exact (congrFun Except.map_id (decodeBodyFrom i rest)).symm
  | cons c t ih =>
    rw [encodeBody_cons, List.append_assoc, decodeBodyFrom_form (isForm_encUnit c), ih, List.length_append,
      Nat.add_assoc]
    cases decodeBodyFrom (i + ((encUnit c).length + (encodeBody t).length)) rest <;> rfl

theorem decodeBody_encodeBody (t : Text) : decodeBody (encodeBody t) = .ok t := by
  have h : decodeBody (encodeBody t ++ []) = .ok (t ++ []) := decodeBodyFrom_encodeBody_append t 0 []
  simpa using h

/-- What is malformed behind the body of a text decides the error (R144). -/
theorem decodeBody_encodeBody_append_malformed (t : Text) {rest : List Byte} {reason : Reason}
    (h : IsMalformed rest reason) :
    decodeBody (encodeBody t ++ rest) = .error (.malformedInput (encodeBody t).length reason) := by
  rw [decodeBody, decodeBodyFrom_encodeBody_append, Nat.zero_add, decodeBodyFrom_malformed h]
  rfl

/-- A text has as many units as its body has bytes where each byte is a form of its own (R151). -/
theorem length_eq_iff_of_decodeBodyFrom {i : Nat} {bs : List Byte} {t : Text} (h : decodeBodyFrom i bs = .ok t) :
    t.length = bs.length ↔ ∀ b ∈ bs, b.toNat ≤ 0x7F := by
  match bs with
  | [] => cases h; simp
  | b :: bs =>
    obtain ⟨form, u, rest, t', hform, hbs, ht', rfl⟩ := decodeBodyFrom_eq_ok h
    have hpos := hform.length_pos
    have hle := length_le_of_decodeBodyFrom ht'
    have hlen : (b :: bs).length = form.length + rest.length := by rw [hbs, List.length_append]
    have ih := length_eq_iff_of_decodeBodyFrom ht'
    have hsplit : (u :: t').length = (b :: bs).length ↔ form.length = 1 ∧ t'.length = rest.length := by
      rw [hlen, List.length_cons]; omega
    rw [hsplit, hform.length_eq_one_iff, ih, hbs, List.forall_mem_append]
termination_by bs.length
decreasing_by omega

/-! ## The rule's loop over a body index (R144, R149) -/

section
variable {body : List Byte} {i : Nat} (fuel : Nat) (units : Text)

theorem bodyLoop_end (hi : body.length ≤ i) : bodyLoop body (fuel + 1) i units = .ok units := by
  rw [bodyLoop, if_neg (Nat.not_lt.mpr hi)]

variable {b0 b1 b2 : Byte} (hi : i < body.length) (hb0 : body.getD i 0 = b0)
include hi hb0

/-- One turn of the loop at a 1-byte form (R145). -/
theorem bodyLoop_one (h0 : leadClass b0 = .one) :
    bodyLoop body (fuel + 1) i units = bodyLoop body fuel (i + 1) (units ++ [unit1 b0]) := by
  obtain ⟨hone, _⟩ := leadClass_ranges b0
  have hlead := hone.mp h0
  subst hb0
  rw [bodyLoop, if_pos hi]
  exact if_pos (by omega)

/-- One turn of the loop at a 2-byte form, cut off or not (R146, R149). -/
theorem bodyLoop_two (hb1 : body.getD (i + 1) 0 = b1) (h0 : leadClass b0 = .two) :
    bodyLoop body (fuel + 1) i units =
      if i + 2 > body.length then .error (.malformedInput i .truncated)
      else if isContinuation b1 then bodyLoop body fuel (i + 2) (units ++ [unit2 b0 b1])
      else .error (.malformedInput i .badContinuation) := by
  obtain ⟨_, htwo, _⟩ := leadClass_ranges b0
  have hlead := htwo.mp h0
  subst hb0 hb1
  rw [bodyLoop, if_pos hi]
  dsimp only
  rw [if_neg (by omega), if_pos (by omega)]
  simp only [isContinuation, decide_eq_true_iff, ne_eq, ite_not, unit2_eq_fields]

/-- One turn of the loop at a 3-byte form, cut off or not (R147, R149). -/
theorem bodyLoop_three (hb1 : body.getD (i + 1) 0 = b1) (hb2 : body.getD (i + 2) 0 = b2)
    (h0 : leadClass b0 = .three) :
    bodyLoop body (fuel + 1) i units =
      if i + 3 > body.length then .error (.malformedInput i .truncated)
      else if isContinuation b1 && isContinuation b2 then bodyLoop body fuel (i + 3) (units ++ [unit3 b0 b1 b2])
      else .error (.malformedInput i .badContinuation) := by
  obtain ⟨_, _, hthree, _⟩ := leadClass_ranges b0
  have hlead := hthree.mp h0
  subst hb0 hb1 hb2
  rw [bodyLoop, if_pos hi]
  dsimp only
  rw [if_neg (by omega), if_neg (by omega), if_pos (by omega)]
  simp only [isContinuation, Bool.and_eq_true, decide_eq_true_iff, ite_and, ne_eq, ite_not, unit3_eq_fields]

/-- One turn of the loop at an invalid lead (R148). -/
theorem bodyLoop_invalid (h0 : leadClass b0 = .invalid) :
    bodyLoop body (fuel + 1) i units = .error (.malformedInput i .badLead) := by
  obtain ⟨_, _, _, hinvalid⟩ := leadClass_ranges b0
  have hlead := hinvalid.mp h0
  subst hb0
  rw [bodyLoop, if_pos hi]
  dsimp only
  rw [if_neg (by omega), if_neg (by omega), if_neg (by omega)]

end

section
variable {body bs : List Byte} {i : Nat}

/-- Where the body goes on with `bs`, a byte past the index is one of `bs`. -/
theorem getD_add_of_drop_eq (h : body.drop i = bs) (k : Nat) : body.getD (i + k) 0 = bs.getD k 0 := by
  rw [← h, List.getD_eq_getElem?_getD, List.getD_eq_getElem?_getD, List.getElem?_drop]

/-- A body that goes on with `bs` ends behind them. -/
theorem length_eq_of_drop_eq (h : body.drop i = bs) (hpos : 0 < bs.length) : body.length = i + bs.length := by
  rw [← h, List.length_drop] at hpos ⊢
  omega

/-- The loop takes a whole form as its unit and goes on behind it. -/
theorem bodyLoop_form {form rest : List Byte} {u : Word16} (hform : IsForm form u)
    (h : body.drop i = form ++ rest) (fuel : Nat) (units : Text) :
    bodyLoop body (fuel + 1) i units = bodyLoop body fuel (i + form.length) (units ++ [u]) := by
  have hpos := hform.length_pos
  have hlen := length_eq_of_drop_eq h (by rw [List.length_append]; omega)
  rw [List.length_append] at hlen
  have hi : i < body.length := by omega
  have hfits : ¬ i + form.length > body.length := by omega
  have hbyte := getD_add_of_drop_eq h
  cases hform with
  | @one b0 h0 => exact bodyLoop_one fuel units hi (hbyte 0) h0
  | @two b0 b1 h0 h1 =>
    exact (bodyLoop_two fuel units hi (hbyte 0) (hbyte 1) h0).trans ((if_neg hfits).trans (if_pos h1))
  | @three b0 b1 b2 h0 h1 h2 =>
    exact (bodyLoop_three fuel units hi (hbyte 0) (hbyte 1) (hbyte 2) h0).trans
      ((if_neg hfits).trans (if_pos (Bool.and_eq_true_iff.mpr ⟨h1, h2⟩)))

/-- The loop stops at a malformed form with that form's reason and the index of its lead byte. -/
theorem bodyLoop_malformed {reason : Reason} (hbad : IsMalformed bs reason) (h : body.drop i = bs) (fuel : Nat)
    (units : Text) : bodyLoop body (fuel + 1) i units = .error (.malformedInput i reason) := by
  have hpos : 0 < bs.length := by cases hbad <;> exact Nat.succ_pos _
  have hlen := length_eq_of_drop_eq h hpos
  have hi : i < body.length := by omega
  have hbyte := getD_add_of_drop_eq h
  cases hbad with
  | badLead h0 rest => exact bodyLoop_invalid fuel units hi (hbyte 0) h0
  | twoCut h0 => exact (bodyLoop_two fuel units hi (hbyte 0) rfl h0).trans (if_pos (by simp [hlen]))
  | threeCut h0 hr =>
    exact (bodyLoop_three fuel units hi (hbyte 0) rfl rfl h0).trans (if_pos (by rw [hlen, List.length_cons]; omega))
  | twoBad h0 h1 rest =>
    exact (bodyLoop_two fuel units hi (hbyte 0) (hbyte 1) h0).trans
      ((if_neg (by simp [hlen])).trans (if_neg (ne_true_of_eq_false h1)))
  | threeBad h0 h12 rest =>
    exact (bodyLoop_three fuel units hi (hbyte 0) (hbyte 1) (hbyte 2) h0).trans
      ((if_neg (by simp [hlen])).trans (if_neg (ne_true_of_eq_false h12)))

end

/-- Units gathered behind those so far are a unit put before the rest. -/
theorem consUnit_map_append (u : Word16) (r : Except Err Text) (units : Text) :
    (consUnit u r).map (units ++ ·) = r.map (units ++ [u] ++ ·) := by
  cases r <;> simp [Except.map]

/-- From every index on the loop does what the scan does with the bytes left, behind the units so far. -/
theorem bodyLoop_eq_decodeBodyFrom {body : List Byte} {fuel i : Nat} (hf : body.length < i + fuel) (units : Text) :
    bodyLoop body fuel i units = (decodeBodyFrom i (body.drop i)).map (units ++ ·) := by
  induction fuel generalizing i units with
  | zero =>
    rw [List.drop_of_length_le (by omega), decodeBodyFrom_nil, Except.map, List.append_nil]
    rfl
  | succ fuel ih =>
    match hd : body.drop i with
    | [] => rw [bodyLoop_end fuel units (List.drop_eq_nil_iff.mp hd), decodeBodyFrom_nil, Except.map, List.append_nil]
    | b0 :: bs =>
      rcases form_or_malformed b0 bs with ⟨form, u, rest, hform, hbs⟩ | ⟨reason, hbad⟩
      · rw [hbs] at hd ⊢
        have hpos := hform.length_pos
        have hrest : body.drop (i + form.length) = rest := by rw [← List.drop_drop, hd, List.drop_left]
        rw [bodyLoop_form hform hd, ih (by omega), hrest, decodeBodyFrom_form hform, consUnit_map_append]
      · rw [bodyLoop_malformed hbad hd, decodeBodyFrom_malformed hbad]
        rfl

/-! ## What `dec.text` does (R150) -/

/-- A source that starts with the bytes asked for and serves the call gives them; no bytes are no call (R41, R44). -/
theorem srcRead_prefix {d : Decoder} {bytes rest : List Byte} (hinp : d.inp = bytes ++ rest)
    (ha : bytes ≠ [] → d.source.srcAnswer = .normal) :
    srcRead bytes.length d = (.ok bytes, ⟨d.inp0, rest, if bytes = [] then d.source else d.source.answered⟩) := by
  by_cases hb : bytes = []
  · subst hb
    rw [if_pos rfl, ← show d.inp = rest from hinp]
    rfl
  · have hn : bytes.length ≠ 0 := mt List.length_eq_zero_iff.mp hb
    rw [srcRead_normal hn (ha hb) (by simp [hinp]), hinp, List.take_left, List.drop_left, if_neg hb]

/-- The length field of a text on a serving source (R150). -/
theorem srcRead_lengthField {d : Decoder} {p tail : List Byte} (ha : d.source.srcAnswer = .normal) (hp : p.length = 2)
    (hinp : d.inp = p ++ tail) : srcRead 2 d = (.ok p, ⟨d.inp0, tail, d.source.answered⟩) := by
  have h := srcRead_prefix hinp fun _ => ha
  rwa [hp, if_neg (List.ne_nil_of_length_eq_add_one hp)] at h

/-- `dec.text` on a Decoder is one response, by what its stream work comes to. -/
theorem exec_decText {s : State} {d d' : Decoder} {o : Except Err Result} (hs : s.addressed = some (.decoder d))
    (h : textDecode d = (o, d')) : exec .decText s = .next (s.afterReply (.decoder d') (answerOf (o.map some))) := by
  rw [exec_decode rfl, State.onDecoder_decoder hs, show decodeWork .decText d = (o, d') from h]

section
variable {s : State} {d : Decoder} (hs : s.addressed = some (.decoder d)) (ha : d.source.srcAnswer = .normal)
include hs ha

/-- A length field and the whole body behind it, on a serving source: the body is scanned, and an empty one makes no
second call (R150, D7). -/
theorem exec_decText_body {p body rest : List Byte} (hp : p.length = 2) (hinp : d.inp = p ++ (body ++ rest))
    (hlen : fromBE p = body.length) (ha' : body ≠ [] → d.source.answered.srcAnswer = .normal) :
    exec .decText s = .next (s.afterReply
      (.decoder ⟨d.inp0, rest, if body = [] then d.source.answered else d.source.answered.answered⟩)
      (answerOf (((decodeBody body).map Result.text).map some))) := by
  have h2 := srcRead_prefix (d := ⟨d.inp0, body ++ rest, d.source.answered⟩) rfl ha'
  rw [← hlen] at h2
  exact exec_decText hs (textDecode_body (srcRead_lengthField ha hp hinp) h2)

/-- A length field on a serving source, and a body read that fails: the operation ends with its error (R150). -/
theorem exec_decText_bodyError {p tail : List Byte} {err : Err} {d' : Decoder} (hp : p.length = 2)
    (hinp : d.inp = p ++ tail) (h2 : srcRead (fromBE p) ⟨d.inp0, tail, d.source.answered⟩ = (.error err, d')) :
    exec .decText s = .next (s.afterReply (.decoder d') (.error err)) :=
  exec_decText hs (textDecode_bodyError (srcRead_lengthField ha hp hinp) h2)

end

/-! ## What `enc.text` writes (R142, R143) -/

/-- The frame of a text by R60's and R63's tables (R62). -/
theorem textFrame_eq (t : Text) :
    textFrame t = bytes16 (BitVec.ofNat 16 (textLength t)) ++ t.flatMap formByFields := by
  rw [textFrame, length_encodeBody, encodeBody, funext encUnit_eq_formByFields]
  rfl

/-- A text within the bound has its frame for a wire image (R142). -/
theorem wireImage_encText {t : Text} (h : textLength t ≤ 65535) : wireImage (.encText t) = some (textFrame t) :=
  if_neg (by rw [length_encodeBody]; omega)

end Sys2Proof.Machine

section
open Sys2Proof Sys2Proof.Machine

/-- Settles O31: within the bound the wire image is the frame; over it no stream work is done. -/
theorem encTextWritesFrame : Obligations.EncTextWritesFrame := by
  intro t
  refine ⟨rfl, fun hfits => ?_, fun hlong s e hs => ?_⟩
  · rw [← textFrame_eq]
    exact ⟨writes_wireImage rfl rfl (wireImage_encText hfits), writeFails_wireImage rfl rfl (wireImage_encText hfits)⟩
  · rw [← length_encodeBody] at hlong ⊢
    rw [exec_encode rfl rfl, State.onEncoder_encoder hs, encodeWork, textEncode_tooLong hlong]
    rfl

/-- Settles O32: each end is that of the first read, of the second read, or of the scan. -/
theorem decTextReadsFrame : Obligations.DecTextReadsFrame := by
  refine ⟨decode_encode (i := .decText) rfl,
    fun s d hs ha hl => exec_decText hs (textDecode_lengthError (srcRead_short ha hl)),
    fun s d err k hs ha => exec_decText hs (textDecode_lengthError (srcRead_fail two_ne_zero ha)),
    fun s d rest hs ha hinp => exec_decText_body hs ha (p := [0, 0]) (body := []) rfl hinp rfl (absurd rfl),
    fun s d h l tail hs ha hinp hpos => ?_⟩
  have hfield : fromBE [h, l] = h.toNat * 256 + l.toNat := by simp
  rw [← hfield] at hpos ⊢
  refine ⟨fun body rest ha' htail hlen => ?_, fun ha' hl => ?_, fun err k ha' => ?_⟩
  · have hbody := exec_decText_body hs ha (p := [h, l]) rfl (htail ▸ hinp) hlen.symm fun _ => ha'
    rw [if_neg (List.ne_nil_of_length_pos (hlen ▸ hpos))] at hbody
    exact ⟨fun t ht => by rw [hbody, ht]; rfl, fun err herr => by rw [hbody, herr]; rfl⟩
  · exact exec_decText_bodyError hs ha rfl hinp (srcRead_short ha' hl)
  · exact exec_decText_bodyError hs ha rfl hinp (srcRead_fail hpos.ne' ha')

/-- Settles O33: at the index 0 all of the body is left and no unit has been gathered. -/
theorem bodyScanIsTheSpecLoop : Obligations.BodyScanIsTheSpecLoop := by
  intro body
  rw [bodyLoop_eq_decodeBodyFrom (by omega), List.drop_zero]
  exact (congrFun Except.map_id (decodeBody body)).symm

/-- Settles O37: behind the body of a text the scan meets the malformed form. -/
theorem firstMalformedFormDecides : Obligations.FirstMalformedFormDecides := by
  intro t b₀ b₁ b₂ tail
  obtain ⟨_, htwo, hthree, hinvalid⟩ := leadClass_ranges b₀
  have hmalformed {rest : List Byte} {reason : Reason} (h : IsMalformed rest reason) :=
    decodeBody_encodeBody_append_malformed t h
  refine ⟨fun h₀ => hmalformed (.badLead (hinvalid.mpr h₀) tail), fun h₀ => ?_, fun h₀ => ?_⟩
  · exact ⟨hmalformed (.twoCut (htwo.mpr h₀)), fun h₁ =>
      hmalformed (.twoBad (htwo.mpr h₀) (Bool.not_eq_true _ ▸ mt isContinuation_iff.mp h₁) tail)⟩
  · refine ⟨hmalformed (.threeCut (hthree.mpr h₀) two_pos), hmalformed (.threeCut (hthree.mpr h₀) one_lt_two),
      fun h₁₂ => hmalformed (.threeBad (hthree.mpr h₀) ?_ tail)⟩
    rwa [← isContinuation_iff, ← isContinuation_iff, Bool.not_eq_true, Bool.not_eq_true,
      ← Bool.and_eq_false_iff] at h₁₂

/-- Settles O38: the scan undoes the forms one by one, and the length field says how many bytes of forms follow it. -/
theorem textRoundTrip : Obligations.TextRoundTrip := by
  intro t
  refine ⟨decodeBody_encodeBody t, fun hfits => ⟨textFrame t, writes_wireImage rfl rfl (wireImage_encText hfits),
    fun s d rest hs ha ha' hinp => ?_⟩⟩
  have hlen : fromBE (beBytes 2 (BitVec.ofNat 16 (encodeBody t).length)) = (encodeBody t).length := by
    rw [fromBE_beBytes, BitVec.toNat_ofNat, length_encodeBody]
    omega
  rw [textFrame, List.append_assoc] at hinp
  have hbody := exec_decText_body hs ha (beBytes_length 2 _) hinp hlen fun _ => ha'
  rw [decodeBody_encodeBody] at hbody
  exact ⟨_, hbody⟩

/-- Settles O39: a form of one byte is a byte below 0x80; the length field bounds the body and so the text. -/
theorem decodedTextIsNoLonger : Obligations.DecodedTextIsNoLonger := by
  refine ⟨fun body t h => ⟨length_le_of_decodeBodyFrom h, length_eq_iff_of_decodeBodyFrom h⟩,
    fun s s' n t h hreplies => ?_⟩
  obtain ⟨x, _, _, rfl⟩ := exec_next h
  obtain ⟨_, hwf⟩ := x.run_evolvesTo_wellFormed .decText
  obtain ⟨_, hresponse⟩ : s.target = n ∧ (x.run .decText).2 = .ok (some (.text t)) := by
    simpa using List.append_cancel_left hreplies
  rw [hresponse] at hwf
  exact hwf

/-- Settles O40: one to three bytes a unit. -/
theorem textLengthBounds : Obligations.TextLengthBounds := by
  refine ⟨textLength_bounds, fun t e => ⟨fun hshort n => ?_, fun hlong => ?_⟩,
    textLength_replicate _ _, textLength_replicate _ _, textLength_replicate _ _⟩
  · obtain ⟨_, hhi⟩ := textLength_bounds t
    rw [textEncode_fits (by rw [length_encodeBody]; omega)]
    rcases sinkWrite_cases (textFrame t) e with ⟨_, hw⟩ | ⟨_, _, _, hw⟩ <;> simp [hw]
  · obtain ⟨hlo, _⟩ := textLength_bounds t
    rw [textEncode_tooLong (by rw [length_encodeBody]; omega), length_encodeBody]

/-- Settles O42: a surrogate is above 0x07FF, so it has a 3-byte form like any other unit there. -/
theorem surrogatesAreIndependentUnits : Obligations.SurrogatesAreIndependentUnits := by
  intro c₁ c₂ h₁ h₂
  have hthree {c : Word16} (h : 0xD800 ≤ c.toNat ∧ c.toNat ≤ 0xDFFF) : (encUnit c).length = 3 := by
    rw [length_encUnit, formLength, if_neg (by omega), if_neg (by omega), if_neg (by omega)]
  have hone (c : Word16) : encodeBody [c] = encUnit c := List.append_nil _
  have hpair : encodeBody [c₁, c₂] = encUnit c₁ ++ encUnit c₂ := by rw [encodeBody_cons, hone]
  refine ⟨hthree h₁, hone c₁ ▸ decodeBody_encodeBody [c₁], hpair, ?_, decodeBody_encodeBody [c₁, c₂]⟩
  rw [hpair, List.length_append, hthree h₁, hthree h₂]

/-- Settles O36: a body is its units' forms put together, each as long as R141 says. -/
theorem encodeBodyConcatenates : Obligations.EncodeBodyConcatenates :=
  ⟨encodeBody_nil, encodeBody_cons, length_encodeBody⟩

end

/-! PROOFS. Errors, and what one operation has to do with the others (60_exceptions.md R200, R208, R213, R214). Settles
O43, O44, O47 and O52. -/

namespace Sys2Proof.Machine

/-! ## Responses (R29, R200) -/

/-- A response has an info exactly when its status is not OK (R29). -/
theorem Response.info_isSome_iff (r : Response) : r.info.isSome = true ↔ r.status ≠ .ok := by
  match r with
  | .ok _ => exact iff_of_false nofun (absurd rfl)
  | .error err => exact iff_of_true rfl (by cases err <;> nofun)

/-- A response is an error exactly when the stream work raised it. -/
theorem answerOf_map_eq_error {α : Type} {f : α → Option Result} {o : Except Err α} {err : Err} :
    answerOf (o.map f) = .error err ↔ o = .error err := by
  cases o <;> simp [Except.map, answerOf]

/-- A response is OK exactly when the stream work succeeded. -/
theorem answerOf_map_eq_ok {α : Type} {f : α → Option Result} {o : Except Err α} {r : Option Result} :
    answerOf (o.map f) = .ok r ↔ ∃ v, o = .ok v ∧ f v = r := by
  cases o <;> simp [Except.map, answerOf]

/-- An operation that succeeds has a result exactly when it is a decode (R29). -/
theorem Instance.run_ok {i : Instr} {x y : Instance} {r : Option Result} (h : x.run i = (y, .ok r)) :
    r.isSome = true ↔ i.direction = .dec := by
  match hd : i.direction, x with
  | .enc, .encoder e =>
    rw [run_encode_encoder hd] at h
    obtain ⟨_, _, rfl⟩ := answerOf_map_eq_ok.mp (congrArg Prod.snd h)
    exact iff_of_false nofun nofun
  | .dec, .decoder d =>
    rw [run_decode_decoder hd] at h
    obtain ⟨_, _, rfl⟩ := answerOf_map_eq_ok.mp (congrArg Prod.snd h)
    exact iff_of_true rfl rfl
  | .enc, .decoder d => rw [run_encode_decoder hd] at h; cases h
  | .dec, .encoder e => rw [run_decode_encoder hd] at h; cases h

/-! ## What an error leaves behind (R208) -/

/-- Instruction `i` on the first instance raises the error and leaves the second instance: which operation can raise it
(R200) and what it has done by then (R208). `Instance.raises_of_run` ties it to the model. -/
inductive Raises (i : Instr) : Instance → Instance → Err → Prop where
  | shortRead {d : Decoder} (inp0 : List Byte) (source : Stream) (needed available : Nat) (hd : i.direction = .dec) :
      Raises i (.decoder d) (.decoder ⟨inp0, [], source⟩) (.shortRead needed available)
  | malformedInput {d d' : Decoder} {h l : Byte} {body : List Byte} (offset : Nat) (reason : Reason) (hi : i = .decText)
      (hinp : d.inp = h :: l :: (body ++ d'.inp)) (hlen : body.length = h.toNat * 256 + l.toNat) :
      Raises i (.decoder d) (.decoder d') (.malformedInput offset reason)
  | lengthExceeded (x : Instance) (length : Nat) (ht : i.wireType = .text) (hd : i.direction = .enc) :
      Raises i x x (.lengthExceeded length)
  | illegalOperation (x : Instance) : Raises i x x (.illegalOperation i.opcode)
  | readFails {d d' : Decoder} (e : IOErr) (hinp : d'.inp <:+ d.inp) :
      Raises i (.decoder d) (.decoder d') (.ioFailure e)
  | writeFails {e e' : Encoder} {wire : List Byte} (err : IOErr) (hi : wireImage i = some wire)
      (hout : e'.out = e.out ++ wire.take (acceptedBytes wire.length e.sink.sinkAnswer)) :
      Raises i (.encoder e) (.encoder e') (.ioFailure err)

/-- A read that succeeds takes its bytes off the front (R41, R44). -/
theorem srcRead_ok_inp {n : Nat} {d d' : Decoder} {bs : List Byte} (h : srcRead n d = (.ok bs, d')) :
    d.inp = bs ++ d'.inp := by
  rcases srcRead_cases n d with ⟨_, hr⟩ | ⟨_, _, _, hr⟩ | ⟨_, _, _, hr⟩ | ⟨_, _, _, _, hr⟩ <;>
    cases hr.symm.trans h
  · rfl
  · exact (List.take_append_drop n d.inp).symm

/-- A decode whose read fails ends as the read does: at the end of the source, or with bytes dropped from the front of
what the Decoder held before (R42, R43). -/
theorem raises_of_srcRead {i : Instr} {n : Nat} {d0 d d' : Decoder} {err : Err} (hd : i.direction = .dec)
    (hsuffix : d.inp <:+ d0.inp) (h : srcRead n d = (.error err, d')) : Raises i (.decoder d0) (.decoder d') err := by
  rcases srcRead_cases n d with ⟨_, hr⟩ | ⟨_, _, _, hr⟩ | ⟨_, _, _, hr⟩ | ⟨_, _, _, _, hr⟩ <;>
    cases hr.symm.trans h
  · exact .shortRead _ _ _ _ hd
  · exact .readFails _ ((List.drop_suffix _ _).trans hsuffix)

/-- `dec.text` ends with the error of its first read, of its second read, or of the scan of a body read whole (R150). -/
theorem raises_of_textDecode {d d' : Decoder} {err : Err} (h : textDecode d = (.error err, d')) :
    Raises .decText (.decoder d) (.decoder d') err := by
  rcases textDecode_cases d with ⟨_, _, h1, ht⟩ | ⟨_, _, _, _, h1, h2, ht⟩ | ⟨_, _, body, d2, h1, h2, ht⟩ <;>
    rw [ht] at h
  · cases h
    exact raises_of_srcRead rfl (List.suffix_refl _) h1
  · cases h
    exact raises_of_srcRead rfl (srcRead_ok_inp h1 ▸ List.suffix_append _ _) h2
  · obtain ⟨hscan, rfl⟩ := Prod.mk.inj h
    obtain ⟨hi, lo, rfl⟩ := List.length_eq_two.mp (srcRead_ok_length h1)
    match hbody : decodeBody body with
    | .ok _ => rw [hbody] at hscan; cases hscan
    | .error _ =>
      rw [hbody] at hscan
      cases hscan
      obtain ⟨offset, reason, rfl, _⟩ := decodeBodyFrom_error hbody
      have hlen : body.length = hi.toNat * 256 + lo.toNat := (srcRead_ok_length h2).trans (by simp)
      have hinp : d.inp = hi :: lo :: (body ++ d2.inp) := srcRead_ok_inp h2 ▸ srcRead_ok_inp h1
      exact .malformedInput offset reason rfl hinp hlen

/-- A decode raises what its one read does, or what `dec.text` does. -/
theorem raises_of_decodeWork {i : Instr} {d d' : Decoder} {err : Err} (hd : i.direction = .dec)
    (h : decodeWork i d = (.error err, d')) : Raises i (.decoder d) (.decoder d') err := by
  rcases decodeWork_eq hd with ⟨rfl, hwork⟩ | ⟨_, n, _, _, _, _, _, hwork⟩ <;> rw [hwork] at h
  · exact raises_of_textDecode h
  · match hread : srcRead n d with
    | (.ok _, _) => rw [fixedDecode, hread] at h; cases h
    | (.error _, _) =>
      rw [fixedDecode, hread] at h
      cases h
      exact raises_of_srcRead hd (List.suffix_refl _) hread

/-- An encode raises what its one sink write does, or exceeds the length bound before any write (R46, R143). -/
theorem raises_of_encodeWork {i : Instr} {e e' : Encoder} {err : Err} (hd : i.direction = .enc)
    (h : encodeWork i e = (.error err, e')) : Raises i (.encoder e) (.encoder e') err := by
  rcases encodeWork_eq hd e with ⟨wire, hi, hwork⟩ | ⟨_, rfl, _, _, hwork⟩ <;> rw [hwork] at h
  · have hstate := sinkWrite_state wire e
    rw [h] at hstate
    rcases sinkWrite_cases wire e with ⟨_, hw⟩ | ⟨_, _, _, hw⟩ <;> cases hw.symm.trans h
    exact .writeFails _ hi (congrArg Encoder.out hstate)
  · cases h
    exact .lengthExceeded _ _ rfl rfl

/-- Whatever error an instruction answers on an instance, it raised it in one of the ways of `Raises`. -/
theorem Instance.raises_of_run {i : Instr} {x y : Instance} {err : Err} (h : x.run i = (y, .error err)) :
    Raises i x y err := by
  match hd : i.direction, x with
  | .enc, .encoder e =>
    rw [run_encode_encoder hd] at h
    obtain ⟨rfl, hanswer⟩ := Prod.mk.inj h
    exact raises_of_encodeWork hd (Prod.ext (answerOf_map_eq_error.mp hanswer) rfl)
  | .dec, .decoder d =>
    rw [run_decode_decoder hd] at h
    obtain ⟨rfl, hanswer⟩ := Prod.mk.inj h
    exact raises_of_decodeWork hd (Prod.ext (answerOf_map_eq_error.mp hanswer) rfl)
  | .enc, .decoder d => rw [run_encode_decoder hd] at h; cases h; exact .illegalOperation _
  | .dec, .encoder e => rw [run_decode_encoder hd] at h; cases h; exact .illegalOperation _

/-- An error is raised by an operation that can raise it (R200). -/
theorem Raises.mayRaise {i : Instr} {x y : Instance} {err : Err} (h : Raises i x y err) : mayRaise i err := by
  cases h with
  | shortRead _ _ _ _ hd => exact hd
  | malformedInput _ _ hi _ _ => exact hi
  | lengthExceeded _ _ ht hd => exact ⟨ht, hd⟩
  | illegalOperation => rfl
  | readFails _ _ | writeFails _ _ _ => trivial

/-! ## The response of a step -/

/-- The response an instruction adds to the log is what it gives when run on the addressed instance (R29). -/
theorem exec_next_response {i : Instr} {s t : State} {n : Nat} {r : Response} (h : exec i s = .next t)
    (hreplies : t.replies = s.replies ++ [⟨n, r⟩]) :
    ∃ x y, s.addressed = some x ∧ x.run i = (y, r) ∧ t = s.afterReply y r := by
  obtain ⟨x, _, hx, rfl⟩ := exec_next h
  obtain ⟨_, rfl⟩ : s.target = n ∧ (x.run i).2 = r := by simpa using hreplies
  exact ⟨x, (x.run i).1, hx, rfl, rfl⟩

/-- A request to an attached instance is answered, unless the opcode does not take its operand (R214). -/
theorem step_request_answered {s : State} {rest : List HostAction} {n : Nat} {r : Request} {x : Instance}
    (h : s.host = .request n r :: rest) (hx : s.instances[n]? = some x)
    (hop : decode r ≠ .error (.operandMismatch r.opcode)) :
    ∃ y response, step s = .next (State.afterReply ⟨s.instances, rest, n, s.replies⟩ y response) := by
  match hr : decode r with
  | .ok i => exact ⟨_, _, (step_request_ok h hx hr).trans (exec_eq_run (decode_wellFormed hr) hx)⟩
  | .error err =>
    rcases decode_error hr with ⟨rfl, _⟩ | ⟨_, _, rfl, _⟩
    · exact ⟨_, _, step_request_reserved h hx hr⟩
    · exact absurd hr hop

end Sys2Proof.Machine

section
open Sys2Proof Sys2Proof.Machine

/-- Settles O43: the response in the log is that of the operation run on its instance, whose errors and results are
known. -/
theorem errorsComeFromTheirOperations : Obligations.ErrorsComeFromTheirOperations := by
  refine ⟨by decide, ⟨fun _ => ⟨rfl, rfl, rfl⟩, fun _ _ => rfl, fun _ _ => rfl, fun _ => rfl, fun _ => rfl, fun _ => rfl,
    fun _ => ⟨rfl, rfl⟩⟩, fun i s t n err h hreplies => ?_, fun i s t n r h hreplies => ⟨r.info_isSome_iff, ?_⟩⟩
  · obtain ⟨x, y, _, hrun, _⟩ := exec_next_response h hreplies
    exact (Instance.raises_of_run hrun).mayRaise
  · obtain ⟨x, y, _, hrun, _⟩ := exec_next_response h hreplies
    match r with
    | .ok result => exact (Instance.run_ok hrun).trans (and_iff_right rfl).symm
    | .error err => exact iff_of_false nofun fun ⟨hok, _⟩ => (Response.info_isSome_iff (.error err)).mp rfl hok

/-- Settles O44, by the ways in which an operation can raise its error. -/
theorem errorsArePrecise : Obligations.ErrorsArePrecise := by
  intro i s t n err h hreplies
  obtain ⟨x, y, hx, hrun, rfl⟩ := exec_next_response h hreplies
  have hy := State.afterReply_addressed (x := y) (r := .error err) hx
  refine ⟨rfl, rfl, rfl, fun _ hm => State.afterReply_other hm, ?_⟩
  cases Instance.raises_of_run hrun with
  | shortRead inp0 source => exact ⟨inp0, source, hy⟩
  | malformedInput _ _ _ hinp hlen => exact ⟨_, _, _, _, _, hx, hy, hinp, hlen⟩
  | lengthExceeded | illegalOperation => exact State.set_addressed hx
  | readFails _ hinp => exact .inl ⟨_, _, hx, hy, hinp⟩
  | writeFails _ hi hout => exact .inr ⟨_, _, _, hx, hy, hi, hout⟩

/-- Settles O47: `Instance.run` takes the addressed instance and nothing else of the state. -/
theorem instancesAreIndependent : Obligations.InstancesAreIndependent := by
  intro i s u s' haddressed h
  obtain ⟨x, hw, hx, rfl⟩ := exec_next h
  have hu : u.addressed = some x := haddressed.symm.trans hx
  refine ⟨fun _ hn => State.afterReply_other hn, _, (x.run i).2, exec_eq_run hw hu, ?_, rfl, rfl⟩
  rw [State.afterReply_addressed hu, State.afterReply_addressed hx]

/-- Settles O52: an attach always completes, and a lawful request is answered. -/
theorem lawfulHostIsNeverStopped : Obligations.LawfulHostIsNeverStopped := by
  intro s a rest h hlawful
  match a with
  | .attachEncoder sch => exact ⟨_, step_attachEncoder h, rfl, nofun⟩
  | .attachDecoder inp0 sch => exact ⟨_, step_attachDecoder h, rfl, nofun⟩
  | .overlap _ _ _ => exact hlawful.elim
  | .request n r =>
    obtain ⟨hn, hop⟩ := hlawful
    obtain ⟨y, response, ht⟩ := step_request_answered h (List.getElem?_eq_getElem hn) hop
    exact ⟨_, ht, rfl, fun _ _ ha => by cases ha; exact ⟨response, rfl⟩⟩

end

/-! PROOFS. Reset, attaching, and a source at its end (70_reset_and_hazards.md R250, R251, R257). Settles O46, O1 and
O4. -/

namespace Sys2Proof.Machine

/-! ## A source at its end (R257) -/

/-- Every decode that finds fewer bytes than its first read asks for ends short; the first read of `dec.text` is that of
the 2-byte length field (R42, R101, R150). -/
theorem readsShort_firstRead {i : Instr} (hd : i.direction = .dec) :
    ReadsShort i ((fieldBytes i.wireType).getD 2) := by
  rcases decodeWork_eq hd with ⟨rfl, _⟩ | ⟨_, _, _, _, _, hfield, _, _⟩
  · obtain ⟨_, hshort, _⟩ := decTextReadsFrame
    exact hshort
  · rw [hfield]
    exact readsShort_of_fieldBytes hd hfield

/-- No decode's first read asks for no bytes (R51). -/
theorem firstRead_pos {i : Instr} (hd : i.direction = .dec) : 0 < (fieldBytes i.wireType).getD 2 := by
  rcases decodeWork_eq hd with ⟨rfl, _⟩ | ⟨_, _, _, hn, _, hfield, _, _⟩
  · exact two_pos
  · rw [hfield]
    exact Nat.pos_of_ne_zero hn

/-- A Decoder at the end of its source evolves only to a Decoder at the end of its source (R23). -/
theorem Instance.evolvesTo_of_inp_nil {d : Decoder} {y : Instance} (h : Instance.evolvesTo (.decoder d) y)
    (hinp : d.inp = []) : ∃ d', y = .decoder d' ∧ d'.inp = [] := by
  match y, h with
  | .decoder d', ⟨hsuffix, _⟩ => exact ⟨d', rfl, List.suffix_nil.mp (hinp ▸ hsuffix)⟩

end Sys2Proof.Machine

section
open Sys2Proof Sys2Proof.Machine

/-- Settles O46: a ShortRead is raised only by a read that leaves `inp` empty, an empty `inp` is too short for any first
read, and a step can only shrink `inp`. -/
theorem shortReadIsForGood : Obligations.ShortReadIsForGood := by
  refine ⟨fun i s t n m a h hreplies => ?ends, fun j s d hd hs hinp ha => ?again, fun s t n d ht hs hinp => ?stays⟩
  case ends =>
    obtain ⟨x, y, hx, hrun, rfl⟩ := exec_next_response h hreplies
    cases Instance.raises_of_run hrun with
    | shortRead => exact ⟨_, State.afterReply_addressed hx, rfl⟩
  case again =>
    have hlength : d.inp.length = 0 := by rw [hinp, List.length_nil]
    have h := readsShort_firstRead hd s d hs ha (hlength ▸ firstRead_pos hd)
    rwa [hlength] at h
  case stays =>
    obtain ⟨hinstances, _⟩ := streamsOnlyAdvance s t ht
    obtain ⟨y, hy, hevolves⟩ := hinstances n _ hs
    obtain ⟨d', rfl, hinp'⟩ := Instance.evolvesTo_of_inp_nil hevolves hinp
    exact ⟨d', hy, hinp'⟩

/-- Settles O1: every field of the reset state is written out empty. -/
theorem resetStartsEmpty : Obligations.ResetStartsEmpty :=
  ⟨rfl, rfl, rfl, rfl⟩

/-- Settles O4: an attach is one step, and its stream is fresh, of the new instance's number. -/
theorem attachGivesResetState : Obligations.AttachGivesResetState :=
  fun _ _ _ => ⟨step_attachEncoder, fun _ => step_attachDecoder⟩

end

/-! PROOFS. The stops of requests that cannot be written (30_encoding.md R68, 60_exceptions.md R214; log entries 6, 7 and
8). Settles O7. -/

namespace Sys2Proof

theorem inSignedRange_eq_false_iff {n : Nat} {v : Int} :
    inSignedRange n v = false ↔ ¬ (-(2 : Int) ^ (n - 1) ≤ v ∧ v < 2 ^ (n - 1)) :=
  Bool.eq_false_iff.trans (not_congr inSignedRange_iff)

namespace Machine

/-- An instruction that no request can carry has no meaning, whatever the state (R68, log entry 8). -/
theorem exec_operandOutOfRange {i : Instr} (hw : i.wellFormed = false) (s : State) :
    exec i s = .refused .operandOutOfRange := by
  cases i
  case encS16 | encS32 | encS64 => exact signedEncode_outOfRange hw _ _ s
  all_goals cases hw

end Machine
end Sys2Proof

section
open Sys2Proof Sys2Proof.Machine

/-- Settles O7: an instance never attached is not found, and a signed operand outside its range is not well-formed. -/
theorem unwritableRequestsStop : Obligations.UnwritableRequestsStop := by
  refine ⟨fun _ _ _ _ h hn => step_request_noInstance h (List.getElem?_eq_none hn),
    fun _ _ _ _ _ h hx hd hr => step_request_operandMismatch h hx hr hd,
    fun s v => ⟨fun hv => ?s16, fun hv => ?s32, fun hv => ?s64⟩⟩
  case s16 => exact exec_operandOutOfRange (i := .encS16 v) (inSignedRange_eq_false_iff.mpr (by omega)) s
  case s32 => exact exec_operandOutOfRange (i := .encS32 v) (inSignedRange_eq_false_iff.mpr (by omega)) s
  case s64 => exact exec_operandOutOfRange (i := .encS64 v) (inSignedRange_eq_false_iff.mpr (by omega)) s

end
